-- ==== Sys2Proof/Word.lean ====
section
/-! DEFINITION. The word types of CORE (00_scope R5, R7): limbs, values, wide products, register and limb numbers. -/

namespace Sys2Proof

/-- One limb, LIMB_W = 64 bits (R5); also the width of a host access (BUS_W). -/
abbrev Word := BitVec 64

/-- One 256-bit pattern, the width W of a value register (R5, R100). -/
abbrev Value := BitVec 256

/-- One wide product, WIDE_W = 512 bits (R5). -/
abbrev Wide := BitVec 512

/-- A register number: R0..R15 (R100, R306). -/
abbrev RegId := Fin 16

/-- A limb number, 0 the least significant (R100). -/
abbrev LimbId := Fin 4

/-- An offset inside the 1 KiB register window (20_memory R200). -/
abbrev Offset := BitVec 10

end Sys2Proof
end

