-- ==== Sys2Proof/Syntax.lean ====
section
/-! DEFINITION. The commands of CORE: one constructor per row of spec/opcode_table.json (30_encoding R305). -/

namespace Sys2Proof

/-- The 27 command forms. The suffix U is `.u` (S = 0, UnsignedInt256), S is `.s` (S = 1, SignedInt256) (R12).
Register operands stand in the order rd, ra, rb, rm of the encoding (R301). -/
inductive Instr where
  -- 40_add_sub R401, R402
  | addU (rd ra rb : RegId)
  | addS (rd ra rb : RegId)
  | subU (rd ra rb : RegId)
  | subS (rd ra rb : RegId)
  -- 41_multiply R451
  | mulU (rd ra rb : RegId)
  | mulS (rd ra rb : RegId)
  -- 42_divide R501, R503
  | divU (rd ra rb : RegId)
  | divS (rd ra rb : RegId)
  -- 43_modular R551 to R555; rm is the modulus
  | addmodU (rd ra rb rm : RegId)
  | addmodS (rd ra rb rm : RegId)
  | submodS (rd ra rb rm : RegId)
  | mulmodU (rd ra rb rm : RegId)
  | mulmodS (rd ra rb rm : RegId)
  -- 44_exponent R601 to R604
  | expU (rd ra rb : RegId)
  | expS (rd ra rb : RegId)
  | expmodU (rd ra rb rm : RegId)
  | expmodS (rd ra rb rm : RegId)
  -- 45_shift R651 to R653
  | shlU (rd ra rb : RegId)
  | shlS (rd ra rb : RegId)
  | shrU (rd ra rb : RegId)
  | shrS (rd ra rb : RegId)
  -- 46_compare_load R701, R702
  | cmpU (ra rb : RegId)
  | cmpS (ra rb : RegId)
  -- 41_multiply R452, 42_divide R502; the last field rm is the second destination (rh, rr)
  | mulw (rd ra rb rh : RegId)
  | divmod (rq ra rb rr : RegId)
  -- 46_compare_load R703
  | ldiU (rd : RegId) (imm : BitVec 16)
  | ldiS (rd : RegId) (imm : BitVec 16)
deriving DecidableEq, Repr

end Sys2Proof
end

