-- ==== Sys2Proof/WellFormed.lean ====
section
/-! DEFINITION. Which terms of Instr are commands: the one field constraint of the opcode table (30_encoding R311). -/

namespace Sys2Proof

/-- A two-destination command names two different destinations (R303, R311); every other field value is
allowed (R306). -/
def Instr.wf : Instr → Bool
  | .addU _ _ _ | .addS _ _ _ | .subU _ _ _ | .subS _ _ _ => true
  | .mulU _ _ _ | .mulS _ _ _ | .divU _ _ _ | .divS _ _ _ => true
  | .addmodU _ _ _ _ | .addmodS _ _ _ _ | .submodS _ _ _ _ => true
  | .mulmodU _ _ _ _ | .mulmodS _ _ _ _ => true
  | .expU _ _ _ | .expS _ _ _ | .expmodU _ _ _ _ | .expmodS _ _ _ _ => true
  | .shlU _ _ _ | .shlS _ _ _ | .shrU _ _ _ | .shrS _ _ _ => true
  | .cmpU _ _ | .cmpS _ _ => true
  | .mulw rd _ _ rh => rd ≠ rh
  | .divmod rq _ _ rr => rq ≠ rr
  | .ldiU _ _ | .ldiS _ _ => true

end Sys2Proof
end

