-- ==== Sys2Proof/Decode.lean ====
section
/-! DEFINITION. The command decoder and, after it, the encoder (30_encoding R300 to R312). -/

namespace Sys2Proof

/-! ### Fields (R301) -/

/-- The 4-bit register number at bits lo+3 to lo of a command word (R306). -/
def regField (w : BitVec 32) (lo : Nat) : RegId := (w.extractLsb' lo 4).toFin

/-- The register and immediate fields of a command word (R301). -/
structure Fields where
  rd : RegId
  ra : RegId
  rb : RegId
  rm : RegId
  imm16 : BitVec 16
deriving DecidableEq, Repr

def fieldsOf (w : BitVec 32) : Fields :=
  { rd := regField w 8, ra := regField w 12, rb := regField w 16, rm := regField w 20, imm16 := w.extractLsb' 16 16 }

/-! ### The opcode table (R302 to R305) -/

/-- The four formats (R302 to R304). -/
inductive Format where
  | threeReg | fourReg | compare | immediate
deriving DecidableEq, Repr

/-- The bits a format fixes: opcode, s and reserved bits (R302 to R304). -/
def Format.mask : Format → BitVec 32
  | .threeReg => 0xFFF000FF
  | .fourReg => 0xFF0000FF
  | .compare => 0xFFF00FFF
  | .immediate => 0x0000F0FF

/-- One row of opcode_table.json; `pattern` is the table's "match", `build` names the row's command. -/
structure Row where
  mnemonic : String
  format : Format
  pattern : BitVec 32
  build : Fields → Instr

/-- (w & mask) = match (R310). -/
def Row.fits (r : Row) (w : BitVec 32) : Bool := w &&& r.format.mask = r.pattern

def arithmeticRows : List Row :=
  [ ⟨"add.u", .threeReg, 0x00000001, fun f => .addU f.rd f.ra f.rb⟩,
    ⟨"add.s", .threeReg, 0x00000041, fun f => .addS f.rd f.ra f.rb⟩,
    ⟨"sub.u", .threeReg, 0x00000002, fun f => .subU f.rd f.ra f.rb⟩,
    ⟨"sub.s", .threeReg, 0x00000042, fun f => .subS f.rd f.ra f.rb⟩,
    ⟨"mul.u", .threeReg, 0x00000003, fun f => .mulU f.rd f.ra f.rb⟩,
    ⟨"mul.s", .threeReg, 0x00000043, fun f => .mulS f.rd f.ra f.rb⟩,
    ⟨"div.u", .threeReg, 0x00000004, fun f => .divU f.rd f.ra f.rb⟩,
    ⟨"div.s", .threeReg, 0x00000044, fun f => .divS f.rd f.ra f.rb⟩ ]

def modularRows : List Row :=
  [ ⟨"addmod.u", .fourReg, 0x00000005, fun f => .addmodU f.rd f.ra f.rb f.rm⟩,
    ⟨"addmod.s", .fourReg, 0x00000045, fun f => .addmodS f.rd f.ra f.rb f.rm⟩,
    ⟨"submod.s", .fourReg, 0x00000046, fun f => .submodS f.rd f.ra f.rb f.rm⟩,
    ⟨"mulmod.u", .fourReg, 0x00000007, fun f => .mulmodU f.rd f.ra f.rb f.rm⟩,
    ⟨"mulmod.s", .fourReg, 0x00000047, fun f => .mulmodS f.rd f.ra f.rb f.rm⟩ ]

def exponentRows : List Row :=
  [ ⟨"exp.u", .threeReg, 0x00000008, fun f => .expU f.rd f.ra f.rb⟩,
    ⟨"exp.s", .threeReg, 0x00000048, fun f => .expS f.rd f.ra f.rb⟩,
    ⟨"expmod.u", .fourReg, 0x00000009, fun f => .expmodU f.rd f.ra f.rb f.rm⟩,
    ⟨"expmod.s", .fourReg, 0x00000049, fun f => .expmodS f.rd f.ra f.rb f.rm⟩ ]

def shiftRows : List Row :=
  [ ⟨"shl.u", .threeReg, 0x0000000A, fun f => .shlU f.rd f.ra f.rb⟩,
    ⟨"shl.s", .threeReg, 0x0000004A, fun f => .shlS f.rd f.ra f.rb⟩,
    ⟨"shr.u", .threeReg, 0x0000000B, fun f => .shrU f.rd f.ra f.rb⟩,
    ⟨"shr.s", .threeReg, 0x0000004B, fun f => .shrS f.rd f.ra f.rb⟩ ]

def compareRows : List Row :=
  [ ⟨"cmp.u", .compare, 0x0000000C, fun f => .cmpU f.ra f.rb⟩,
    ⟨"cmp.s", .compare, 0x0000004C, fun f => .cmpS f.ra f.rb⟩ ]

/-- The rows whose rm field is a second destination (R303). -/
def twoDestRows : List Row :=
  [ ⟨"mulw", .fourReg, 0x00000010, fun f => .mulw f.rd f.ra f.rb f.rm⟩,
    ⟨"divmod", .fourReg, 0x00000011, fun f => .divmod f.rd f.ra f.rb f.rm⟩ ]

def loadRows : List Row :=
  [ ⟨"ldi.u", .immediate, 0x00000020, fun f => .ldiU f.rd f.imm16⟩,
    ⟨"ldi.s", .immediate, 0x00000060, fun f => .ldiS f.rd f.imm16⟩ ]

/-- opcode_table.json, in its order. -/
def opcodeTable : List Row :=
  arithmeticRows ++ modularRows ++ exponentRows ++ shiftRows ++ compareRows ++ twoDestRows ++ loadRows

/-! ### Decode (R310, R311) -/

/-- Why a word is ILLEGAL. All three complete with the same outcome code (R311; log 14). -/
inductive IllegalWord where
  /-- Bits 63:32 of the CMD write are not all 0. -/
  | upperHalf
  /-- No row of the opcode table matches: unassigned opcode, reserved bit set, or s not allowed. -/
  | noRow
  /-- MULW or DIVMOD with rd = rm. -/
  | sameDestination
deriving DecidableEq, Repr

/-- R310's decode, total on every 64-bit word written to CMD. -/
def decode (W : Word) : Except IllegalWord Instr :=
  if W.extractLsb' 32 32 ≠ 0 then .error .upperHalf
  else
    let w := W.extractLsb' 0 32
    match opcodeTable.find? (·.fits w) with
    | none => .error .noRow
    | some row =>
      let i := row.build (fieldsOf w)
      if i.wf then .ok i else .error .sameDestination

/-- The 64-bit CMD word of an instruction the opcode table gives `nbits` bits: the bits above are 0. -/
def tableWord (nbits w : Nat) : Word := BitVec.ofNat 64 (w % 2 ^ nbits)

/-- The instruction the decoder reads from a word numbered as spec/opcode_table.json numbers it: CORE takes a command
as one 64-bit little-endian bus word whose bits 31:0 are the table's bits (R202, R300). -/
def decodeTableWord (nbits w : Nat) : Option Instr :=
  match decode (tableWord nbits w) with
  | .ok i => some i
  | .error _ => none

/-! ### Encode (the diagrams of R302 to R304) -/

/-- A register number as its 4-bit field (R306). -/
def regBits (r : RegId) : BitVec 4 := BitVec.ofFin r

/-- Format 3R (R302): `low` is bit 7 (zero), s and op. -/
def encode3R (low : BitVec 8) (rd ra rb : RegId) : BitVec 32 :=
  (0#12 ++ regBits rb ++ regBits ra ++ regBits rd ++ low : BitVec 32)

/-- Format 4R (R303). -/
def encode4R (low : BitVec 8) (rd ra rb rm : RegId) : BitVec 32 :=
  (0#8 ++ regBits rm ++ regBits rb ++ regBits ra ++ regBits rd ++ low : BitVec 32)

/-- Format C (R304): the rd field is 0000. -/
def encodeC (low : BitVec 8) (ra rb : RegId) : BitVec 32 :=
  (0#12 ++ regBits rb ++ regBits ra ++ 0#4 ++ low : BitVec 32)

/-- Format I (R304): bits 15:12 are 0000. -/
def encodeI (low : BitVec 8) (rd : RegId) (imm : BitVec 16) : BitVec 32 :=
  (imm ++ 0#4 ++ regBits rd ++ low : BitVec 32)

/-- The word formula of the command rules (R401 and the rest): base | rd<<8 | ra<<12 | rb<<16 | rm<<20, where base is
op | s<<6. -/
def ruleWord (base : Word) (rd ra rb rm : RegId) : Word :=
  base ||| BitVec.ofNat 64 rd.val <<< 8 ||| BitVec.ofNat 64 ra.val <<< 12 ||| BitVec.ofNat 64 rb.val <<< 16
    ||| BitVec.ofNat 64 rm.val <<< 20

/-- The word formula of LDI (R703): base | rd<<8 | imm16<<16. -/
def ruleWordI (base : Word) (rd : RegId) (imm : BitVec 16) : Word :=
  base ||| BitVec.ofNat 64 rd.val <<< 8 ||| imm.setWidth 64 <<< 16

/-- The command word of a command (R302 to R305): op in bits 5:0, s in bit 6. -/
def encodeCommand : Instr → BitVec 32
  | .addU rd ra rb => encode3R 0x01 rd ra rb
  | .addS rd ra rb => encode3R 0x41 rd ra rb
  | .subU rd ra rb => encode3R 0x02 rd ra rb
  | .subS rd ra rb => encode3R 0x42 rd ra rb
  | .mulU rd ra rb => encode3R 0x03 rd ra rb
  | .mulS rd ra rb => encode3R 0x43 rd ra rb
  | .divU rd ra rb => encode3R 0x04 rd ra rb
  | .divS rd ra rb => encode3R 0x44 rd ra rb
  | .addmodU rd ra rb rm => encode4R 0x05 rd ra rb rm
  | .addmodS rd ra rb rm => encode4R 0x45 rd ra rb rm
  | .submodS rd ra rb rm => encode4R 0x46 rd ra rb rm
  | .mulmodU rd ra rb rm => encode4R 0x07 rd ra rb rm
  | .mulmodS rd ra rb rm => encode4R 0x47 rd ra rb rm
  | .expU rd ra rb => encode3R 0x08 rd ra rb
  | .expS rd ra rb => encode3R 0x48 rd ra rb
  | .expmodU rd ra rb rm => encode4R 0x09 rd ra rb rm
  | .expmodS rd ra rb rm => encode4R 0x49 rd ra rb rm
  | .shlU rd ra rb => encode3R 0x0A rd ra rb
  | .shlS rd ra rb => encode3R 0x4A rd ra rb
  | .shrU rd ra rb => encode3R 0x0B rd ra rb
  | .shrS rd ra rb => encode3R 0x4B rd ra rb
  | .cmpU ra rb => encodeC 0x0C ra rb
  | .cmpS ra rb => encodeC 0x4C ra rb
  | .mulw rd ra rb rh => encode4R 0x10 rd ra rb rh
  | .divmod rq ra rb rr => encode4R 0x11 rq ra rb rr
  | .ldiU rd imm => encodeI 0x20 rd imm
  | .ldiS rd imm => encodeI 0x60 rd imm

/-- The 64-bit word the host writes to CMD: zext_64 of the command word (R300, R903). -/
def encode (i : Instr) : Word := (encodeCommand i).setWidth 64

end Sys2Proof
end

