-- ==== Sys2Proof/Machine/Operands.lean ====
section
/-! DEFINITION. How patterns are read and made: limbs, uval, sval, enc, the integer operators, and the operand forms
(00_scope R7 to R10; 30_encoding R306 to R309). -/

namespace Sys2Proof.Machine

/-! ### Limbs (R7, R8) -/

/-- limb(v, j) = v[64j+63 : 64j] (R7). -/
def limb {n : Nat} (v : BitVec n) (j : Nat) : Word := v.extractLsb' (64 * j) 64

/-- The four limbs of a value, least significant first (R100). -/
def toLimbs (v : Value) : List Word := [limb v 0, limb v 1, limb v 2, limb v 3]

/-- Σ word[i] · 2^(64i) (R8). -/
def limbsVal : List Word → Nat
  | [] => 0
  | w :: ws => w.toNat + 2 ^ 64 * limbsVal ws

/-- The pattern whose limbs are `ws`. -/
def ofLimbs {n : Nat} (ws : List Word) : BitVec n := BitVec.ofNat n (limbsVal ws)

/-! ### Integers (R8, R9, R10) -/

/-- uval (R8). -/
def uval (v : Value) : Nat := v.toNat

/-- sval (R8): uval(v) − 2^256 · v[255]. -/
def sval (v : Value) : Int := if v.getLsbD 255 then (uval v : Int) - 2 ^ 256 else uval v

/-- enc (R8): the pattern v with uval(v) = z mod 2^256. -/
def enc (z : Int) : Value := BitVec.ofInt 256 z

/-- enc512 (R8), of a nonnegative integer. -/
def enc512 (z : Nat) : Wide := BitVec.ofNat 512 z

/-- tdiv (R9), for y ≠ 0. -/
def tdiv (x y : Int) : Int := x.sign * y.sign * ((x.natAbs / y.natAbs : Nat) : Int)

/-- trem (R9). -/
def trem (x y : Int) : Int := x - y * tdiv x y

/-- tmod (R9), for k > 0. -/
def tmod (x : Int) (k : Nat) : Int := x.sign * ((x.natAbs % k : Nat) : Int)

/-- sint32 (R10). -/
def sint32 (v : BitVec 32) : Int := if v.getLsbD 31 then (v.toNat : Int) - 2 ^ 32 else v.toNat

/-! ### Operand forms -/

/-- The shift amount of SHL and SHR: n = sint32(x[rb][31:0]) (R307). -/
def shiftAmount (v : Value) : Int := sint32 (v.extractLsb' 0 32)

/-- The LDI immediate, zero-extended (R308, s = 0). -/
def immU (imm : BitVec 16) : Value := imm.setWidth 256

/-- The LDI immediate, sign-extended (R308, s = 1). -/
def immS (imm : BitVec 16) : Value := imm.signExtend 256

/-- Bit 255: a negative `.s` value, and for EXP.s and EXPMOD.s a negative exponent (R8, R309). -/
def isNeg (v : Value) : Bool := v.getLsbD 255

/-- |sval v| as an unsigned pattern, by the two's-complement negation ~x + 1 (42_divide R503). -/
def magnitude (v : Value) : Value := if isNeg v then ~~~v + 1 else v

/-- The pattern of a magnitude under a sign: enc(−mag) or enc(mag) (R503, R556, R604). -/
def withSign (neg : Bool) (mag : Value) : Value := if neg then ~~~mag + 1 else mag

end Sys2Proof.Machine
end

