-- ==== Sys2Proof/Machine/Datapath.lean ====
section
/-! DEFINITION. The datapaths of CORE: adder, subtractor, wide multiplier, divider, reduction, exponentiation, barrel
shifter, comparator (R400, R450, R500, R550, R556, R600, R650, R700). Only their results are architectural (D30); they
follow the spec's limb-level reference, but for the divider, which is written by its result and stands beside its
reference loop (log 10). -/

namespace Sys2Proof.Machine

/-! ### Adder and subtractor (R400) -/

/-- The ripple-carry chain, limb 0 first: t is 65 bits wide. -/
def addLimbs : List Word → List Word → Bool → List Word × Bool
  | x :: xs, y :: ys, c =>
    let t : BitVec 65 := x.setWidth 65 + y.setWidth 65 + (BitVec.ofBool c).setWidth 65
    let rest := addLimbs xs ys (t.getLsbD 64)
    (t.setWidth 64 :: rest.1, rest.2)
  | _, _, c => ([], c)

/-- Add256: the sum and the carry out of limb 3. -/
def add256 (a b : Value) : Value × Bool :=
  let r := addLimbs (toLimbs a) (toLimbs b) false
  (ofLimbs r.1, r.2)

/-- The ripple-borrow chain, limb 0 first: t in ℤ. -/
def subLimbs : List Word → List Word → Bool → List Word × Bool
  | x :: xs, y :: ys, bw =>
    let t : Int := (x.toNat : Int) - (y.toNat : Int) - (bw.toNat : Int)
    let rest := subLimbs xs ys (decide (t < 0))
    ((if t < 0 then BitVec.ofInt 64 (t + 2 ^ 64) else BitVec.ofInt 64 t) :: rest.1, rest.2)
  | _, _, bw => ([], bw)

/-- Sub256: the difference and the borrow out of limb 3. -/
def sub256 (a b : Value) : Value × Bool :=
  let r := subLimbs (toLimbs a) (toLimbs b) false
  (ofLimbs r.1, r.2)

/-! ### Wide multiplier (R450) -/

/-- One row of partial products: limb x of a times every limb of b, added into the columns ps; the last limb is the
row's carry. t is 128 bits wide. -/
def mulRow (x : Word) : List Word → List Word → Word → List Word
  | y :: ys, p :: ps, carry =>
    let t : BitVec 128 := x.setWidth 128 * y.setWidth 128 + p.setWidth 128 + carry.setWidth 128
    t.extractLsb' 0 64 :: mulRow x ys ps (t.extractLsb' 64 64)
  | _, _, carry => [carry]

/-- The rows of a, one column further up each time. -/
def mulRows : List Word → List Word → List Word → List Word
  | [], _, ps => ps
  | x :: xs, ys, ps =>
    match mulRow x ys ps 0 with
    | p :: rest => p :: mulRows xs ys rest
    | [] => []

/-- MulWide: the 512-bit product, limbs P0..P7. -/
def mulWide (a b : Value) : Wide := ofLimbs (mulRows (toLimbs a) (toLimbs b) [0, 0, 0, 0])

/-- P[255:0]. -/
def lowHalf (p : Wide) : Value := p.extractLsb' 0 256

/-- P[511:256]. -/
def highHalf (p : Wide) : Value := p.extractLsb' 256 256

/-! ### Divider (R500) -/

/-- DivModN by its result: uval(Q) = floor(uval(A) / uval(B)), uval(Rm) = uval(A) mod uval(B), for B ≠ 0. -/
def divModN {n : Nat} (A : BitVec n) (B : Value) : BitVec n × Value :=
  (BitVec.ofNat n (A.toNat / uval B), BitVec.ofNat 256 (A.toNat % uval B))

/-- The restoring loop of R500 over the dividend bits i−1 to 0, on the quotient and the 257-bit remainder. -/
def divLoop {n : Nat} (A : BitVec n) (B : Value) : Nat → BitVec n → BitVec 257 → BitVec n × BitVec 257
  | 0, q, r => (q, r)
  | i + 1, q, r =>
    let r' := (r <<< 1) ||| (BitVec.ofBool (A.getLsbD i)).setWidth 257
    if B.setWidth 257 ≤ r' then divLoop A B i (q ||| BitVec.twoPow n i) (r' - B.setWidth 257)
    else divLoop A B i q r'

/-- R500's reference datapath, restoring binary long division. -/
def divModReference {n : Nat} (A : BitVec n) (B : Value) : BitVec n × Value :=
  let r := divLoop A B n 0 0
  (r.1, r.2.setWidth 256)

/-! ### Reduction (R550, R556) -/

/-- Reduce: X mod m, for m ≠ 0. -/
def reduce (X : Wide) (m : Value) : Value := (divModN X m).2

/-- SReduce: |X| reduced by |m|, with the sign of X; |X| < 2^512. -/
def sreduce (X : Int) (m : Value) : Value := withSign (decide (X < 0)) (reduce (enc512 X.natAbs) (magnitude m))

/-! ### Exponentiation (R600) -/

/-- PowLoop over the exponent bits i−1 to 0: square, then multiply where the bit is 1. -/
def powLoop (step : Value → Value → Value) (a e : Value) : Nat → Value → Value
  | 0, r => r
  | i + 1, r =>
    let r2 := step r r
    powLoop step a e i (if e.getLsbD i then step r2 a else r2)

/-- EXP's pipeline: r0 = One, multiply and keep the low half. -/
def powWrap (a e : Value) : Value := powLoop (fun x y => lowHalf (mulWide x y)) a e 256 1

/-- EXPMOD's pipeline: r0 = 1 mod m, multiply and reduce, for m ≠ 0. -/
def powMod (a e m : Value) : Value :=
  powLoop (fun x y => reduce (mulWide x y) m) a e 256 (reduce (enc512 1) m)

/-! ### Barrel shifter (R650) -/

/-- ext(a, k, F). -/
def extLimb (a : Value) (k : Int) (F : Word) : Word :=
  if k < 0 then 0 else if k ≤ 3 then limb a k.toNat else F

/-- Limb i of ShiftLeft(a, n). -/
def shiftLeftLimb (a : Value) (n i : Nat) : Word :=
  let q : Int := n / 64
  let r := n % 64
  let hi := extLimb a (i - q) 0 <<< r
  let lo := if r ≠ 0 then extLimb a (i - q - 1) 0 >>> (64 - r) else 0
  hi ||| lo

/-- ShiftLeft, for 0 ≤ n ≤ 255: zero fill from the low end. -/
def shiftLeft (a : Value) (n : Nat) : Value :=
  ofLimbs [shiftLeftLimb a n 0, shiftLeftLimb a n 1, shiftLeftLimb a n 2, shiftLeftLimb a n 3]

/-- Limb i of ShiftRight(a, n, F). -/
def shiftRightLimb (a : Value) (n : Nat) (F : Word) (i : Nat) : Word :=
  let q : Int := n / 64
  let r := n % 64
  let hi := extLimb a (i + q) F >>> r
  let lo := if r ≠ 0 then extLimb a (i + q + 1) F <<< (64 - r) else 0
  hi ||| lo

/-- ShiftRight, for 0 ≤ n ≤ 255: fill limb F from the high end. -/
def shiftRight (a : Value) (n : Nat) (F : Word) : Value :=
  ofLimbs [shiftRightLimb a n F 0, shiftRightLimb a n F 1, shiftRightLimb a n F 2, shiftRightLimb a n F 3]

/-- 64 copies of a[255] (R653). -/
def signFill (a : Value) : Word := if isNeg a then BitVec.allOnes 64 else 0

/-! ### Comparator (R700) -/

/-- The scan, most significant limb first. -/
def scanLimbs : List Word → List Word → Ordering
  | x :: xs, y :: ys => if x < y then .lt else if y < x then .gt else scanLimbs xs ys
  | _, _ => .eq

/-- CmpU. -/
def compareU (a b : Value) : Ordering := scanLimbs (toLimbs a).reverse (toLimbs b).reverse

/-- CmpS: flip bit 255 of both. -/
def compareS (a b : Value) : Ordering := compareU (a ^^^ BitVec.twoPow 256 255) (b ^^^ BitVec.twoPow 256 255)

end Sys2Proof.Machine
end

