-- ==== Sys2Proof/Config.lean ====
section
/-! DEFINITION. What an implementation fixes, and the one free value the spec leaves open (93_implementation_defined U2, U5). -/

namespace Sys2Proof

/-- The number of the 1 KiB page the platform places the window at: the open parameter CORE_BASE of R5 is
1 KiB aligned, so it is 1024 times this (log 7). No body that anything can evaluate. -/
opaque Config.corePage : Nat

/-- CORE_BASE (R5, R200). -/
def Config.coreBase : Nat := 1024 * Config.corePage

/-- FREE VALUE (log 2). What the n-th host read of a value register made while BUSY = 1 returns: any 64-bit
value, fresh for each read (R203, R903; 93 U2). -/
opaque Config.busyRead : Nat → Word

end Sys2Proof
end

