-- ==== Sys2Proof/Machine/State.lean ====
section
/-! DEFINITION. The architectural state of CORE (10_state R112), the coming host actions, and the state after reset
(70_reset R900). Plain data only. -/

namespace Sys2Proof.Machine

/-- One limb of a value register. `written` is the some/none of R112: false until the limb is first written after
reset. The spec leaves the value of an unwritten limb unspecified (R103); the model holds a named value there
(log 1) and Safety.lean says which runs use one. -/
structure Limb where
  value : Word
  written : Bool
deriving DecidableEq, Repr

/-- DESIGN CHOICE (log 1, unsafe): a limb nothing has written since reset holds 0. -/
def Limb.unwritten : Limb := { value := 0, written := false }

/-- The widths a bus access can have: 8 bytes is the only defined one, 1, 2, 4 and 16 are refused with BERR
(20_memory R201). -/
inductive AccessSize where
  | b1 | b2 | b4 | b8 | b16
deriving DecidableEq, Repr

/-- The four kinds of step of R908: what the host, CORE and the reset input do next. Offsets are relative to
CORE_BASE. -/
inductive Event where
  /-- A host write of `v` (its low 64 bits) to the window. -/
  | hostWrite (off : Offset) (size : AccessSize) (v : Word)
  /-- A host read of the window. -/
  | hostRead (off : Offset) (size : AccessSize)
  /-- CORE completes the in-flight command. -/
  | complete
  /-- The hardware reset input. -/
  | reset
deriving DecidableEq, Repr

/-- R112's state, and three fields of the model's own: the coming events, the values host reads have returned, and
the counter of the free value. -/
structure State where
  /-- R0..R15, four limbs each, limb 0 least significant (R100). -/
  regs : Vector (Vector Limb 4) 16
  /-- The whole word written to CMD, until its completion (R105); BUSY is its presence. -/
  inflight : Option Word
  /-- STATUS.C (R108). -/
  c : Bool
  /-- STATUS.CMP (R108): 00 EQUAL, 01 LESS, 10 GREATER. -/
  cmp : BitVec 2
  /-- STATUS.ERR (R108, R801). -/
  err : BitVec 4
  /-- STATUS.ESTICKY (R108). -/
  esticky : Bool
  /-- STATUS.OVR (R108). -/
  ovr : Bool
  /-- STATUS.BERR (R108). -/
  berr : Bool
  /-- The model's own: what happens next, in order; all interleavings of the agents are lists (log 3). -/
  events : List Event
  /-- The model's own: the words host reads returned, newest first (log 5). -/
  readLog : List Word
  /-- The model's own: how many free values have been used (log 2). -/
  freeCount : Nat
deriving DecidableEq, Repr

/-- Why the model stops. Closed. -/
inductive Fault where
  /-- Raised by step alone, on a state whose CMP is 11 or whose ERR is 6 to 15: "never produced", and "stuck if ever
  reached" (R108; 93 U14; log 9). Safe: the machine has no such state. -/
  | illegalStatus
deriving DecidableEq, Repr

/-- Why the model has no meaning for an instruction. Closed. -/
inductive Refusal where
  /-- Raised by an arm of exec that has no meaning yet; safe. No arm of this model raises it. -/
  | notModelled (mnemonic : String)
deriving DecidableEq, Repr

/-- What one step or one command answers. -/
abbrev Result := Host.Outcome State Fault Refusal

/-- The state after reset (R900). Every register limb is unwritten; nothing is in flight; STATUS reads 0. No event
is pending, nothing has been read, no free value has been used. -/
def State.reset : State :=
  { regs := Vector.replicate 16 (Vector.replicate 4 Limb.unwritten)
    inflight := none
    c := false
    cmp := 0
    err := 0
    esticky := false
    ovr := false
    berr := false
    events := []
    readLog := []
    freeCount := 0 }

end Sys2Proof.Machine
end

