-- ==== Sys2Proof/Machine/Flags.lean ====
section
/-! DEFINITION. STATUS: the outcome codes, the CMP codes, the word as read, and the write-1-to-clear rule
(10_state R108; 60_exceptions R801). -/

namespace Sys2Proof.Machine

/-- The outcome codes that are errors (R801). -/
inductive ErrCode where
  | illegal | divZero | modZero | negExponent | negShift
deriving DecidableEq, Repr

/-- NONE (R801). -/
def errNone : BitVec 4 := 0

/-- The ERR field of each error (R801). -/
def ErrCode.code : ErrCode → BitVec 4
  | .illegal => 1
  | .divZero => 2
  | .modZero => 3
  | .negExponent => 4
  | .negShift => 5

/-- The CMP field of a three-way comparison: 00 EQUAL, 01 LESS, 10 GREATER (R108, R701). -/
def cmpCode : Ordering → BitVec 2
  | .eq => 0b00
  | .lt => 0b01
  | .gt => 0b10

/-- STATUS.BUSY: something is in flight (R105). -/
def State.busy (s : State) : Bool := s.inflight.isSome

/-- The STATUS word as the host reads it (R108, R908): bits 63:11 are 0. -/
def State.statusWord (s : State) : Word :=
  (0#53 ++ BitVec.ofBool s.berr ++ BitVec.ofBool s.ovr ++ BitVec.ofBool s.esticky ++ s.err ++ s.cmp
    ++ BitVec.ofBool s.c ++ BitVec.ofBool s.busy : BitVec 64)

/-- A host write of `v` to STATUS: a 1 in bit 8, 9 or 10 clears that sticky bit, nothing else is writable (R108). -/
def State.writeStatus (s : State) (v : Word) : State :=
  { s with
    esticky := s.esticky && !v.getLsbD 8
    ovr := s.ovr && !v.getLsbD 9
    berr := s.berr && !v.getLsbD 10 }

/-- CMP is not 11 and ERR is at most 5: the values CORE produces (R108; 93 U14). -/
def State.statusLegal (s : State) : Bool := s.cmp ≠ 0b11 && s.err.toNat ≤ 5

end Sys2Proof.Machine
end

