-- ==== Sys2Proof/Machine/Ops.lean ====
section
/-! DEFINITION. The shared operations: value registers, completion, the raise of an error, and the host's accesses to
the register window (10_state R102 to R107; 20_memory; 60_exceptions R802; 70_reset R900, R908). -/

namespace Sys2Proof.Machine

/-! ### Value registers -/

/-- Limb j of Ri. -/
def State.limbAt (s : State) (i : RegId) (j : LimbId) : Limb := s.regs[i.val][j.val]

/-- The value of a limb register, as the host reads it when BUSY = 0 (R203). -/
def State.limbValue (s : State) (i : RegId) (j : LimbId) : Word := (s.limbAt i j).value

/-- x[i]: the 256-bit pattern of Ri (R11, R306). Every register is read the same way; none is hardwired (R100). -/
def State.x (s : State) (i : RegId) : Value :=
  ofLimbs [s.limbValue i 0, s.limbValue i 1, s.limbValue i 2, s.limbValue i 3]

/-- The four written limbs of a value. -/
def writtenLimbs (v : Value) : Vector Limb 4 :=
  #v[⟨limb v 0, true⟩, ⟨limb v 1, true⟩, ⟨limb v 2, true⟩, ⟨limb v 3, true⟩]

/-- x[i] <- v by a command: all four limbs at once (R112). -/
def State.setX (s : State) (i : RegId) (v : Value) : State :=
  { s with regs := s.regs.set i.val (writtenLimbs v) }

/-- A host write of limb j of Ri, the other three limbs unchanged (R203). -/
def State.setLimb (s : State) (i : RegId) (j : LimbId) (v : Word) : State :=
  { s with regs := s.regs.set i.val (s.regs[i.val].set j.val ⟨v, true⟩) }

/-- STATUS.C <- b. -/
def State.setC (s : State) (b : Bool) : State := { s with c := b }

/-- STATUS.CMP <- the code of o. -/
def State.setCmp (s : State) (o : Ordering) : State := { s with cmp := cmpCode o }

/-! ### Completion (R106) and the raise of an error (R802) -/

/-- Completion without an error: ERR <- NONE, ESTICKY as it was, nothing in flight (R106, R802). -/
def State.succeed (s : State) : State := { s with err := errNone, inflight := none }

/-- raise DomainError(code) and raise Illegal() (R802): no value register, C or CMP is written, ERR <- code,
ESTICKY <- 1, nothing in flight. CORE has no trap: this is all that an error does (R810), and there is no return from
it (R807). -/
def State.raise (s : State) (e : ErrCode) : State := { s with err := e.code, esticky := true, inflight := none }

/-- A command ends with an error. -/
def raiseError (e : ErrCode) (s : State) : Result := .next (s.raise e)

/-- A command ends by writing one register. -/
def writeOne (rd : RegId) (v : Value) (s : State) : Result := .next (s.setX rd v).succeed

/-- A command ends by writing two registers, its rd and its rm field. -/
def writeTwo (rd : RegId) (v : Value) (rm : RegId) (u : Value) (s : State) : Result :=
  .next ((s.setX rd v).setX rm u).succeed

/-! ### The host's register window (20_memory R200 to R203) -/

/-- What a defined access reaches. -/
inductive Target where
  | limb (i : RegId) (j : LimbId)
  | cmd
  | status
deriving DecidableEq, Repr

/-- The target of an access: none unless it has 8 bytes, an 8-aligned offset and an offset below 0x210 (R201,
R908's ok); limb j of Ri at 0x20·i + 8·j, CMD at 0x200, STATUS at 0x208 (R200). -/
def accessTarget (off : Offset) (size : AccessSize) : Option Target :=
  if size ≠ .b8 ∨ off.toNat % 8 ≠ 0 ∨ 0x210 ≤ off.toNat then none
  else if off.toNat < 0x200 then some (.limb (Fin.ofNat 16 (off.toNat / 32)) (Fin.ofNat 4 (off.toNat % 32 / 8)))
  else if off.toNat = 0x200 then some .cmd
  else some .status

/-- A defined host write (R107, R108, R203, R903): while BUSY = 1 a write to a limb or to CMD is dropped and sets OVR. -/
def State.writeTarget (s : State) (v : Word) : Target → State
  | .limb i j => if s.busy then { s with ovr := true } else s.setLimb i j v
  | .cmd => if s.busy then { s with ovr := true } else { s with inflight := some v }
  | .status => s.writeStatus v

/-- A host write (R908 host_write): one that is not defined is ignored and sets BERR (R201). -/
def State.hostWrite (s : State) (off : Offset) (size : AccessSize) (v : Word) : State :=
  match accessTarget off size with
  | none => { s with berr := true }
  | some t => s.writeTarget v t

/-- The word a defined host read returns (R107, R108, R203): a limb read while BUSY = 1 returns a free value (log 2),
CMD reads 0. -/
def State.readTarget (s : State) : Target → Word
  | .limb i j => if s.busy then Config.busyRead s.freeCount else s.limbValue i j
  | .cmd => 0
  | .status => s.statusWord

/-- The word a host read returns (R908 host_read): one that is not defined returns 0 (R201). -/
def State.readValue (s : State) (off : Offset) (size : AccessSize) : Word :=
  match accessTarget off size with
  | none => 0
  | some t => s.readTarget t

/-- Whether a read takes a free value: a limb read while BUSY = 1 (R203). -/
def State.readTakesFree (s : State) (off : Offset) (size : AccessSize) : Bool :=
  match accessTarget off size with
  | some (.limb _ _) => s.busy
  | some .cmd | some .status | none => false

/-- A host read (R908 host_read): its word goes to the read log, one that is not defined sets BERR, and nothing else
of CORE changes (R205). -/
def State.hostRead (s : State) (off : Offset) (size : AccessSize) : State :=
  { s with
    berr := s.berr || (accessTarget off size).isNone
    readLog := s.readValue off size :: s.readLog
    freeCount := if s.readTakesFree off size then s.freeCount + 1 else s.freeCount }

/-- The hardware reset input (R900): R112's state as after reset, whatever was in flight discarded; the model's own
fields stay. -/
def State.hardwareReset (s : State) : State :=
  { State.reset with events := s.events, readLog := s.readLog, freeCount := s.freeCount }

/-! ### Bus addresses (R200): the window is the 1 KiB at CORE_BASE -/

/-- The offset of a bus address inside the window; none where the address is the platform's, not CORE's. -/
def windowOffset (addr : Nat) : Option Offset :=
  if Config.coreBase ≤ addr ∧ addr < Config.coreBase + 1024 then some (BitVec.ofNat 10 (addr - Config.coreBase)) else none

/-- The event a bus write at an absolute address is for CORE, if it reaches CORE. -/
def busWrite (addr : Nat) (size : AccessSize) (v : Word) : Option Event :=
  (windowOffset addr).map fun off => .hostWrite off size v

/-- The event a bus read at an absolute address is for CORE, if it reaches CORE. -/
def busRead (addr : Nat) (size : AccessSize) : Option Event :=
  (windowOffset addr).map fun off => .hostRead off size

end Sys2Proof.Machine
end

