-- ==== Sys2Proof/Machine/AddSub.lean ====
section
/-! DEFINITION. ADD and SUB (40_add_sub R401, R402). -/

namespace Sys2Proof.Machine

/-- R401, the same for both types: the sum to rd, the carry out to C. -/
def addCommand (rd ra rb : RegId) (s : State) : Result :=
  let r := add256 (s.x ra) (s.x rb)
  .next ((s.setX rd r.1).setC r.2).succeed

/-- R402, the same for both types: the difference to rd, the borrow out to C. -/
def subCommand (rd ra rb : RegId) (s : State) : Result :=
  let r := sub256 (s.x ra) (s.x rb)
  .next ((s.setX rd r.1).setC r.2).succeed

/-- add.u (R401). -/
def execAddU (rd ra rb : RegId) (s : State) : Result := addCommand rd ra rb s

/-- add.s (R401). -/
def execAddS (rd ra rb : RegId) (s : State) : Result := addCommand rd ra rb s

/-- sub.u (R402). -/
def execSubU (rd ra rb : RegId) (s : State) : Result := subCommand rd ra rb s

/-- sub.s (R402). -/
def execSubS (rd ra rb : RegId) (s : State) : Result := subCommand rd ra rb s

end Sys2Proof.Machine
end

