-- ==== Sys2Proof/Machine/CompareLoad.lean ====
section
/-! DEFINITION. CMP and LDI (46_compare_load R701 to R703). -/

namespace Sys2Proof.Machine

/-- cmp.u (R701): CMP is written, no value register is. -/
def execCmpU (ra rb : RegId) (s : State) : Result := .next (s.setCmp (compareU (s.x ra) (s.x rb))).succeed

/-- cmp.s (R702). -/
def execCmpS (ra rb : RegId) (s : State) : Result := .next (s.setCmp (compareS (s.x ra) (s.x rb))).succeed

/-- ldi.u (R703): the zero-extended immediate; no register is read. -/
def execLdiU (rd : RegId) (imm : BitVec 16) (s : State) : Result := writeOne rd (immU imm) s

/-- ldi.s (R703): the sign-extended immediate. -/
def execLdiS (rd : RegId) (imm : BitVec 16) (s : State) : Result := writeOne rd (immS imm) s

end Sys2Proof.Machine
end

