-- ==== Sys2Proof/Machine/Divide.lean ====
section
/-! DEFINITION. DIV and DIVMOD (42_divide R501 to R503). -/

namespace Sys2Proof.Machine

/-- div.u (R501). -/
def execDivU (rd ra rb : RegId) (s : State) : Result :=
  if s.x rb = 0 then raiseError .divZero s
  else writeOne rd (divModN (s.x ra) (s.x rb)).1 s

/-- div.s (R503): the quotient of the magnitudes, negative when exactly one operand is; Min / −1 wraps to Min. -/
def execDivS (rd ra rb : RegId) (s : State) : Result :=
  if s.x rb = 0 then raiseError .divZero s
  else
    let mag := (divModN (magnitude (s.x ra)) (magnitude (s.x rb))).1
    writeOne rd (withSign (isNeg (s.x ra) != isNeg (s.x rb)) mag) s

/-- divmod (R502): the quotient to rq, the remainder to rr; rq = rr raises ILLEGAL before DIV_ZERO (R803). -/
def execDivmod (rq ra rb rr : RegId) (s : State) : Result :=
  if rq = rr then raiseError .illegal s
  else if s.x rb = 0 then raiseError .divZero s
  else
    let r := divModN (s.x ra) (s.x rb)
    writeTwo rq r.1 rr r.2 s

end Sys2Proof.Machine
end

