-- ==== Sys2Proof/Machine/Exponent.lean ====
section
/-! DEFINITION. EXP and EXPMOD (44_exponent R601 to R604). -/

namespace Sys2Proof.Machine

/-- exp.u (R601): never an error. -/
def execExpU (rd ra rb : RegId) (s : State) : Result := writeOne rd (powWrap (s.x ra) (s.x rb)) s

/-- exp.s (R602): bit 255 of the exponent raises NEG_EXPONENT; the power's pattern is the unsigned one. -/
def execExpS (rd ra rb : RegId) (s : State) : Result :=
  if isNeg (s.x rb) then raiseError .negExponent s
  else writeOne rd (powWrap (s.x ra) (s.x rb)) s

/-- expmod.u (R603). -/
def execExpmodU (rd ra rb rm : RegId) (s : State) : Result :=
  if s.x rm = 0 then raiseError .modZero s
  else writeOne rd (powMod (s.x ra) (s.x rb) (s.x rm)) s

/-- expmod.s (R604): MOD_ZERO before NEG_EXPONENT; the magnitude |a|^e mod |m| under the sign of the exact power. -/
def execExpmodS (rd ra rb rm : RegId) (s : State) : Result :=
  if s.x rm = 0 then raiseError .modZero s
  else if isNeg (s.x rb) then raiseError .negExponent s
  else
    let mag := powMod (magnitude (s.x ra)) (s.x rb) (magnitude (s.x rm))
    writeOne rd (withSign (isNeg (s.x ra) && (s.x rb).getLsbD 0) mag) s

end Sys2Proof.Machine
end

