-- ==== Sys2Proof/Machine/Modular.lean ====
section
/-! DEFINITION. ADDMOD, SUBMOD and MULMOD (43_modular R551 to R555). -/

namespace Sys2Proof.Machine

/-- addmod.u (R551): the 257-bit sum {c, sum}, reduced. -/
def execAddmodU (rd ra rb rm : RegId) (s : State) : Result :=
  if s.x rm = 0 then raiseError .modZero s
  else
    let r := add256 (s.x ra) (s.x rb)
    writeOne rd (reduce ((BitVec.ofBool r.2 ++ r.1).setWidth 512) (s.x rm)) s

/-- addmod.s (R553): the exact sum, reduced with its sign. -/
def execAddmodS (rd ra rb rm : RegId) (s : State) : Result :=
  if s.x rm = 0 then raiseError .modZero s
  else writeOne rd (sreduce (sval (s.x ra) + sval (s.x rb)) (s.x rm)) s

/-- submod.s (R554): the exact difference, reduced with its sign. -/
def execSubmodS (rd ra rb rm : RegId) (s : State) : Result :=
  if s.x rm = 0 then raiseError .modZero s
  else writeOne rd (sreduce (sval (s.x ra) - sval (s.x rb)) (s.x rm)) s

/-- mulmod.u (R552): the 512-bit product, reduced. -/
def execMulmodU (rd ra rb rm : RegId) (s : State) : Result :=
  if s.x rm = 0 then raiseError .modZero s
  else writeOne rd (reduce (mulWide (s.x ra) (s.x rb)) (s.x rm)) s

/-- mulmod.s (R555): the exact product, reduced with its sign. -/
def execMulmodS (rd ra rb rm : RegId) (s : State) : Result :=
  if s.x rm = 0 then raiseError .modZero s
  else writeOne rd (sreduce (sval (s.x ra) * sval (s.x rb)) (s.x rm)) s

end Sys2Proof.Machine
end

