-- ==== Sys2Proof/Machine/Multiply.lean ====
section
/-! DEFINITION. MUL and MULW (41_multiply R451, R452). -/

namespace Sys2Proof.Machine

/-- R451, the same for both types: the low 256 bits of the product. -/
def mulCommand (rd ra rb : RegId) (s : State) : Result := writeOne rd (lowHalf (mulWide (s.x ra) (s.x rb))) s

/-- mul.u (R451). -/
def execMulU (rd ra rb : RegId) (s : State) : Result := mulCommand rd ra rb s

/-- mul.s (R451). -/
def execMulS (rd ra rb : RegId) (s : State) : Result := mulCommand rd ra rb s

/-- mulw (R452): the low half to rd, the high half to rh; rd = rh raises ILLEGAL. -/
def execMulw (rd ra rb rh : RegId) (s : State) : Result :=
  if rd = rh then raiseError .illegal s
  else
    let p := mulWide (s.x ra) (s.x rb)
    writeTwo rd (lowHalf p) rh (highHalf p) s

end Sys2Proof.Machine
end

