-- ==== Sys2Proof/Machine/Shift.lean ====
section
/-! DEFINITION. SHL and SHR (45_shift R651 to R653). -/

namespace Sys2Proof.Machine

/-- R651, the same for both types: the amount is read by R307, a negative one raises NEG_SHIFT, 256 or more gives Zero. -/
def shlCommand (rd ra rb : RegId) (s : State) : Result :=
  let n := shiftAmount (s.x rb)
  if n < 0 then raiseError .negShift s
  else if 256 ≤ n then writeOne rd 0 s
  else writeOne rd (shiftLeft (s.x ra) n.toNat) s

/-- shl.u (R651). -/
def execShlU (rd ra rb : RegId) (s : State) : Result := shlCommand rd ra rb s

/-- shl.s (R651). -/
def execShlS (rd ra rb : RegId) (s : State) : Result := shlCommand rd ra rb s

/-- shr.u (R652): zero fill. -/
def execShrU (rd ra rb : RegId) (s : State) : Result :=
  let n := shiftAmount (s.x rb)
  if n < 0 then raiseError .negShift s
  else if 256 ≤ n then writeOne rd 0 s
  else writeOne rd (shiftRight (s.x ra) n.toNat 0) s

/-- shr.s (R653): sign fill; 256 or more gives {F, F, F, F}. -/
def execShrS (rd ra rb : RegId) (s : State) : Result :=
  let n := shiftAmount (s.x rb)
  let F := signFill (s.x ra)
  if n < 0 then raiseError .negShift s
  else if 256 ≤ n then writeOne rd (ofLimbs [F, F, F, F]) s
  else writeOne rd (shiftRight (s.x ra) n.toNat F) s

end Sys2Proof.Machine
end

