-- ==== Sys2Proof/Machine/Dispatch.lean ====
section
/-! DEFINITION. The completion of a decoded command, one arm per constructor (10_state R106). -/

namespace Sys2Proof.Machine

def exec (i : Instr) (s : State) : Host.Outcome State Fault Refusal :=
  match i with
  | .addU rd ra rb => Sys2Proof.Machine.execAddU rd ra rb s
  | .addS rd ra rb => Sys2Proof.Machine.execAddS rd ra rb s
  | .subU rd ra rb => Sys2Proof.Machine.execSubU rd ra rb s
  | .subS rd ra rb => Sys2Proof.Machine.execSubS rd ra rb s
  | .mulU rd ra rb => Sys2Proof.Machine.execMulU rd ra rb s
  | .mulS rd ra rb => Sys2Proof.Machine.execMulS rd ra rb s
  | .divU rd ra rb => Sys2Proof.Machine.execDivU rd ra rb s
  | .divS rd ra rb => Sys2Proof.Machine.execDivS rd ra rb s
  | .addmodU rd ra rb rm => Sys2Proof.Machine.execAddmodU rd ra rb rm s
  | .addmodS rd ra rb rm => Sys2Proof.Machine.execAddmodS rd ra rb rm s
  | .submodS rd ra rb rm => Sys2Proof.Machine.execSubmodS rd ra rb rm s
  | .mulmodU rd ra rb rm => Sys2Proof.Machine.execMulmodU rd ra rb rm s
  | .mulmodS rd ra rb rm => Sys2Proof.Machine.execMulmodS rd ra rb rm s
  | .expU rd ra rb => Sys2Proof.Machine.execExpU rd ra rb s
  | .expS rd ra rb => Sys2Proof.Machine.execExpS rd ra rb s
  | .expmodU rd ra rb rm => Sys2Proof.Machine.execExpmodU rd ra rb rm s
  | .expmodS rd ra rb rm => Sys2Proof.Machine.execExpmodS rd ra rb rm s
  | .shlU rd ra rb => Sys2Proof.Machine.execShlU rd ra rb s
  | .shlS rd ra rb => Sys2Proof.Machine.execShlS rd ra rb s
  | .shrU rd ra rb => Sys2Proof.Machine.execShrU rd ra rb s
  | .shrS rd ra rb => Sys2Proof.Machine.execShrS rd ra rb s
  | .cmpU ra rb => Sys2Proof.Machine.execCmpU ra rb s
  | .cmpS ra rb => Sys2Proof.Machine.execCmpS ra rb s
  | .mulw rd ra rb rh => Sys2Proof.Machine.execMulw rd ra rb rh s
  | .divmod rq ra rb rr => Sys2Proof.Machine.execDivmod rq ra rb rr s
  | .ldiU rd imm => Sys2Proof.Machine.execLdiU rd imm s
  | .ldiS rd imm => Sys2Proof.Machine.execLdiS rd imm s

end Sys2Proof.Machine
end

