-- ==== Sys2Proof/Machine/Complete.lean ====
section
/-! DEFINITION. Completion of the in-flight word, and what each event does (10_state R106; 70_reset R908). -/

namespace Sys2Proof.Machine

/-- complete() of R106 on the word held in flight: decode all 64 bits, then the command's rule; an illegal word raises
ILLEGAL and reads no register (R310, R311, R803). -/
def completeWord (W : Word) (s : State) : Result :=
  match decode W with
  | .ok i => exec i s
  | .error _ => raiseError .illegal s

/-- CORE's own step: the in-flight command completes; with nothing in flight there is nothing to do (R908; log 12). -/
def completeInflight (s : State) : Result :=
  match s.inflight with
  | some W => completeWord W s
  | none => .next s

/-- What one event does to the machine. -/
def runEvent (e : Event) (s : State) : Result :=
  match e with
  | .hostWrite off size v => .next (s.hostWrite off size v)
  | .hostRead off size => .next (s.hostRead off size)
  | .complete => completeInflight s
  | .reset => .next s.hardwareReset

/-- The event that comes next, taken off the list; when the list is used up, CORE completes what is in flight
(the fairness of R908; log 3, log 12). -/
def runNext (s : State) : Result :=
  match s.events with
  | e :: es => runEvent e { s with events := es }
  | [] => completeInflight s

end Sys2Proof.Machine
end

