-- ==== Sys2Proof/Machine/Step.lean ====
section
/-! DEFINITION. One step of the machine: the transition system of 70_reset R908. -/

namespace Sys2Proof.Machine

/-- One step. A state whose STATUS holds a value CORE never produces is stuck (93 U14; log 9); from any other, the
next event runs. -/
def step (s : State) : Host.Outcome State Fault Refusal :=
  if s.statusLegal then runNext s else .fault .illegalStatus

/-- The state whose very next step completes the command word `w`: it is in flight and its completion comes next. CORE
has no program counter (R104), so this stands for the host's CMD write and the wait (log 4). -/
def State.withFetchWord (s : State) (nbits w : Nat) : State :=
  { s with inflight := some (tableWord nbits w), events := .complete :: s.events }

end Sys2Proof.Machine
end

