-- ==== Sys2Proof/Machine/Assembler.lean ====
section
/-! DEFINITION. Assembler syntax and pseudo-instructions (30_encoding R320, R321), and the command sequences that build
the constants (48_host_conversions R751). A notation only: nothing here changes what a command does. -/

namespace Sys2Proof.Machine

/-- r0 .. r15 (R320). -/
def asmReg (r : RegId) : String := "r" ++ Nat.repr r.val

def asmRegs : List RegId → String
  | [] => ""
  | [r] => asmReg r
  | r :: rs => asmReg r ++ ", " ++ asmRegs rs

/-- A command in R320's syntax; immediates in decimal, signed for ldi.s (log 16). -/
def asm : Instr → String
  | .addU rd ra rb => "add.u " ++ asmRegs [rd, ra, rb]
  | .addS rd ra rb => "add.s " ++ asmRegs [rd, ra, rb]
  | .subU rd ra rb => "sub.u " ++ asmRegs [rd, ra, rb]
  | .subS rd ra rb => "sub.s " ++ asmRegs [rd, ra, rb]
  | .mulU rd ra rb => "mul.u " ++ asmRegs [rd, ra, rb]
  | .mulS rd ra rb => "mul.s " ++ asmRegs [rd, ra, rb]
  | .divU rd ra rb => "div.u " ++ asmRegs [rd, ra, rb]
  | .divS rd ra rb => "div.s " ++ asmRegs [rd, ra, rb]
  | .addmodU rd ra rb rm => "addmod.u " ++ asmRegs [rd, ra, rb, rm]
  | .addmodS rd ra rb rm => "addmod.s " ++ asmRegs [rd, ra, rb, rm]
  | .submodS rd ra rb rm => "submod.s " ++ asmRegs [rd, ra, rb, rm]
  | .mulmodU rd ra rb rm => "mulmod.u " ++ asmRegs [rd, ra, rb, rm]
  | .mulmodS rd ra rb rm => "mulmod.s " ++ asmRegs [rd, ra, rb, rm]
  | .expU rd ra rb => "exp.u " ++ asmRegs [rd, ra, rb]
  | .expS rd ra rb => "exp.s " ++ asmRegs [rd, ra, rb]
  | .expmodU rd ra rb rm => "expmod.u " ++ asmRegs [rd, ra, rb, rm]
  | .expmodS rd ra rb rm => "expmod.s " ++ asmRegs [rd, ra, rb, rm]
  | .shlU rd ra rb => "shl.u " ++ asmRegs [rd, ra, rb]
  | .shlS rd ra rb => "shl.s " ++ asmRegs [rd, ra, rb]
  | .shrU rd ra rb => "shr.u " ++ asmRegs [rd, ra, rb]
  | .shrS rd ra rb => "shr.s " ++ asmRegs [rd, ra, rb]
  | .cmpU ra rb => "cmp.u " ++ asmRegs [ra, rb]
  | .cmpS ra rb => "cmp.s " ++ asmRegs [ra, rb]
  | .mulw rd ra rb rh => "mulw " ++ asmRegs [rd, rh, ra, rb]
  | .divmod rq ra rb rr => "divmod " ++ asmRegs [rq, rr, ra, rb]
  | .ldiU rd imm => "ldi.u " ++ asmReg rd ++ ", " ++ Nat.repr imm.toNat
  | .ldiS rd imm => "ldi.s " ++ asmReg rd ++ ", " ++ Int.repr imm.toInt

/-- `ldi.u rd, imm` with imm in 0..65535; outside it, an assembly error and no command (R320). -/
def asmLdiU (rd : RegId) (imm : Int) : Option Instr :=
  if 0 ≤ imm ∧ imm ≤ 65535 then some (.ldiU rd (BitVec.ofInt 16 imm)) else none

/-- `ldi.s rd, imm` with imm in −32768..32767; imm16 = imm mod 2^16 (R320). -/
def asmLdiS (rd : RegId) (imm : Int) : Option Instr :=
  if -32768 ≤ imm ∧ imm ≤ 32767 then some (.ldiS rd (BitVec.ofInt 16 imm)) else none

/-! ### Pseudo-instructions (R321) -/

def pseudoClr (rd : RegId) : Instr := .ldiU rd 0

def pseudoOne (rd : RegId) : Instr := .ldiU rd 1

def pseudoOnes (rd : RegId) : Instr := .ldiS rd (BitVec.ofInt 16 (-1))

/-- `li.u rd, k` for 0 ≤ k < 2^16. -/
def pseudoLiU (rd : RegId) (k : Int) : Option Instr := asmLdiU rd k

/-- `li.s rd, k` for −2^15 ≤ k < 2^15. -/
def pseudoLiS (rd : RegId) (k : Int) : Option Instr := asmLdiS rd k

/-- The idiom mov rd, ra ≡ add.u rd, ra, rz, where rz holds Zero. -/
def idiomMov (rd ra rz : RegId) : Instr := .addU rd ra rz

/-- The idiom neg rd, ra ≡ sub.u rd, rz, ra, where rz holds Zero. -/
def idiomNeg (rd ra rz : RegId) : Instr := .subU rd rz ra

/-! ### Building the constants (R751); t is a temporary register other than rd -/

def buildZero (rd : RegId) : List Instr := [.ldiU rd 0]

def buildOne (rd : RegId) : List Instr := [.ldiU rd 1]

def buildMaxUnsigned (rd : RegId) : List Instr := [.ldiS rd (BitVec.ofInt 16 (-1))]

def buildMinSigned (rd t : RegId) : List Instr := [.ldiU rd 1, .ldiU t 255, .shlU rd rd t]

def buildMaxSigned (rd t : RegId) : List Instr := [.ldiS rd (BitVec.ofInt 16 (-1)), .ldiU t 1, .shrU rd rd t]

end Sys2Proof.Machine
end

