-- ==== Sys2Proof/Machine/HostConversions.lean ====
section
/-! DEFINITION. The host's side of the bus: constants, conversions and access sequences (48_host_conversions R750 to
R757; 70_reset R903; 95_test_vectors WR and RUN). CORE has no conversion command (D26). -/

namespace Sys2Proof.Machine

/-! ### Constants (R750), limb 0 first -/

def zeroValue : Value := ofLimbs [0, 0, 0, 0]

def oneValue : Value := ofLimbs [1, 0, 0, 0]

/-- UnsignedInt256.Max, all bits 1; also SignedInt256 −1. -/
def maxUnsigned : Value := ofLimbs [0xFFFFFFFFFFFFFFFF, 0xFFFFFFFFFFFFFFFF, 0xFFFFFFFFFFFFFFFF, 0xFFFFFFFFFFFFFFFF]

/-- UnsignedInt256.Min. -/
def minUnsigned : Value := zeroValue

/-- SignedInt256.Min. -/
def minSigned : Value := ofLimbs [0, 0, 0, 0x8000000000000000]

/-- SignedInt256.Max. -/
def maxSigned : Value := ofLimbs [0xFFFFFFFFFFFFFFFF, 0xFFFFFFFFFFFFFFFF, 0xFFFFFFFFFFFFFFFF, 0x7FFFFFFFFFFFFFFF]

/-! ### Conversions into CORE (R752, R753) -/

/-- FromArbitraryPrecision, the same for both types; never rejects (R752). -/
def fromArbitraryPrecision (z : Int) : Value := enc z

/-- From a native unsigned integer of width w ≤ 256 (R753). -/
def fromNativeUnsigned {w : Nat} (v : BitVec w) : Value := v.setWidth 256

/-- From a native signed integer of width w ≤ 256 (R753). -/
def fromNativeSigned {w : Nat} (v : BitVec w) : Value := v.signExtend 256

/-! ### Conversions out of CORE (R755, R757) -/

/-- ToArbitraryPrecision of UnsignedInt256 (R755). -/
def toArbitraryUnsigned (v : Value) : Int := uval v

/-- ToArbitraryPrecision of SignedInt256 (R755). -/
def toArbitrarySigned (v : Value) : Int := sval v

/-- The base-10 digits of n, most significant first, put before `rest`; `fuel` bounds the number of digits. -/
def decimalDigits : Nat → Nat → List Char → List Char
  | 0, _, rest => rest
  | fuel + 1, n, rest =>
    let ds := Nat.digitChar (n % 10) :: rest
    if n / 10 = 0 then ds else decimalDigits fuel (n / 10) ds

/-- ToDecimalString of UnsignedInt256 (R757): at most 78 digits; Zero is "0" (log 11). -/
def toDecimalUnsigned (v : Value) : String := String.ofList (decimalDigits 78 (uval v) [])

/-- ToDecimalString of SignedInt256 (R757): a "-" before the digits of |sval v| when sval v < 0. -/
def toDecimalSigned (v : Value) : String :=
  String.ofList (if sval v < 0 then '-' :: decimalDigits 78 (sval v).natAbs [] else decimalDigits 78 (sval v).natAbs [])

/-! ### The host's access sequences -/

/-- The offset of limb j of Ri: 0x20·i + 8·j (R200). -/
def limbOffset (i : RegId) (j : LimbId) : Offset := BitVec.ofNat 10 (0x20 * i.val + 8 * j.val)

/-- The offset of CMD (R200). -/
def cmdOffset : Offset := 0x200

/-- The offset of STATUS (R200). -/
def statusOffset : Offset := 0x208

/-- WR(i, v): the four limb writes of a value (R752). -/
def writeRegister (i : RegId) (v : Value) : List Event :=
  [ .hostWrite (limbOffset i 0) .b8 (limb v 0), .hostWrite (limbOffset i 1) .b8 (limb v 1),
    .hostWrite (limbOffset i 2) .b8 (limb v 2), .hostWrite (limbOffset i 3) .b8 (limb v 3) ]

/-- The four limb reads of a register, limb 0 first. -/
def readRegister (i : RegId) : List Event :=
  [ .hostRead (limbOffset i 0) .b8, .hostRead (limbOffset i 1) .b8,
    .hostRead (limbOffset i 2) .b8, .hostRead (limbOffset i 3) .b8 ]

/-- RUN(word) of R903, with the completion before the one poll that then returns BUSY = 0. -/
def runCommand (w : BitVec 32) : List Event :=
  [.hostWrite cmdOffset .b8 (w.setWidth 64), .complete, .hostRead statusOffset .b8]

/-- Byte k of a 64-bit host word, at address offset + k: bits 8k+7:8k (R202). -/
def wordByte (v : Word) (k : Nat) : BitVec 8 := v.extractLsb' (8 * k) 8

end Sys2Proof.Machine
end

