-- ==== Sys2Proof/Machine/Usage.lean ====
section
/-! DEFINITION. Which registers a command reads and writes, and which steps use a value the spec leaves unspecified
(10_state R102, R103; 70_reset R902, R903). -/

namespace Sys2Proof.Machine

/-- The source registers of a command: ra, rb, and rm where it is the modulus (R102, R303). -/
def sources : Instr → List RegId
  | .addU _ ra rb | .addS _ ra rb | .subU _ ra rb | .subS _ ra rb => [ra, rb]
  | .mulU _ ra rb | .mulS _ ra rb | .divU _ ra rb | .divS _ ra rb => [ra, rb]
  | .addmodU _ ra rb rm | .addmodS _ ra rb rm | .submodS _ ra rb rm => [ra, rb, rm]
  | .mulmodU _ ra rb rm | .mulmodS _ ra rb rm => [ra, rb, rm]
  | .expU _ ra rb | .expS _ ra rb => [ra, rb]
  | .expmodU _ ra rb rm | .expmodS _ ra rb rm => [ra, rb, rm]
  | .shlU _ ra rb | .shlS _ ra rb | .shrU _ ra rb | .shrS _ ra rb => [ra, rb]
  | .cmpU ra rb | .cmpS ra rb => [ra, rb]
  | .mulw _ ra rb _ | .divmod _ ra rb _ => [ra, rb]
  | .ldiU _ _ | .ldiS _ _ => []

/-- The destination registers a command's rule names (R102). -/
def dests : Instr → List RegId
  | .addU rd _ _ | .addS rd _ _ | .subU rd _ _ | .subS rd _ _ => [rd]
  | .mulU rd _ _ | .mulS rd _ _ | .divU rd _ _ | .divS rd _ _ => [rd]
  | .addmodU rd _ _ _ | .addmodS rd _ _ _ | .submodS rd _ _ _ => [rd]
  | .mulmodU rd _ _ _ | .mulmodS rd _ _ _ => [rd]
  | .expU rd _ _ | .expS rd _ _ => [rd]
  | .expmodU rd _ _ _ | .expmodS rd _ _ _ => [rd]
  | .shlU rd _ _ | .shlS rd _ _ | .shrU rd _ _ | .shrS rd _ _ => [rd]
  | .cmpU _ _ | .cmpS _ _ => []
  | .mulw rd _ _ rm | .divmod rd _ _ rm => [rd, rm]
  | .ldiU rd _ | .ldiS rd _ => [rd]

/-- ADD and SUB: the commands that write STATUS.C (R108). -/
def writesC : Instr → Bool
  | .addU _ _ _ | .addS _ _ _ | .subU _ _ _ | .subS _ _ _ => true
  | .mulU _ _ _ | .mulS _ _ _ | .divU _ _ _ | .divS _ _ _ => false
  | .addmodU _ _ _ _ | .addmodS _ _ _ _ | .submodS _ _ _ _ => false
  | .mulmodU _ _ _ _ | .mulmodS _ _ _ _ => false
  | .expU _ _ _ | .expS _ _ _ | .expmodU _ _ _ _ | .expmodS _ _ _ _ => false
  | .shlU _ _ _ | .shlS _ _ _ | .shrU _ _ _ | .shrS _ _ _ => false
  | .cmpU _ _ | .cmpS _ _ => false
  | .mulw _ _ _ _ | .divmod _ _ _ _ => false
  | .ldiU _ _ | .ldiS _ _ => false

/-- CMP: the command that writes STATUS.CMP (R108). -/
def writesCmp : Instr → Bool
  | .cmpU _ _ | .cmpS _ _ => true
  | .addU _ _ _ | .addS _ _ _ | .subU _ _ _ | .subS _ _ _ => false
  | .mulU _ _ _ | .mulS _ _ _ | .divU _ _ _ | .divS _ _ _ => false
  | .addmodU _ _ _ _ | .addmodS _ _ _ _ | .submodS _ _ _ _ => false
  | .mulmodU _ _ _ _ | .mulmodS _ _ _ _ => false
  | .expU _ _ _ | .expS _ _ _ | .expmodU _ _ _ _ | .expmodS _ _ _ _ => false
  | .shlU _ _ _ | .shlS _ _ _ | .shrU _ _ _ | .shrS _ _ _ => false
  | .mulw _ _ _ _ | .divmod _ _ _ _ => false
  | .ldiU _ _ | .ldiS _ _ => false

/-- Every limb of Ri has been written since reset. -/
def State.allWritten (s : State) (i : RegId) : Bool :=
  (s.limbAt i 0).written && (s.limbAt i 1).written && (s.limbAt i 2).written && (s.limbAt i 3).written

/-- Completing the word W would read a source limb that nothing has written (R112: all four limbs of each source). An
illegal word reads none (R803). -/
def State.wordReadsUnwritten (s : State) (W : Word) : Bool :=
  match decode W with
  | .ok i => (sources i).any fun r => !s.allWritten r
  | .error _ => false

/-- Completing what is in flight would read such a limb. -/
def State.completionReadsUnwritten (s : State) : Bool :=
  match s.inflight with
  | some W => s.wordReadsUnwritten W
  | none => false

/-- A host read at BUSY = 0 of a limb that nothing has written (R908 host_read's fault). -/
def State.readsUnwritten (s : State) (off : Offset) (size : AccessSize) : Bool :=
  match accessTarget off size with
  | some (.limb i j) => !s.busy && !(s.limbAt i j).written
  | some .cmd | some .status | none => false

/-- The next step uses a limb that nothing has written since reset: where R103 and R908 put the fault. -/
def State.usesUnwritten (s : State) : Bool :=
  match s.events with
  | .hostRead off size :: _ => s.readsUnwritten off size
  | .complete :: _ | [] => s.completionReadsUnwritten
  | .hostWrite _ _ _ :: _ | .reset :: _ => false

/-- The next step is a host access that R903 says the host must not make while BUSY = 1. -/
def State.busyHazard (s : State) : Bool :=
  match s.events with
  | .hostWrite off size _ :: _ =>
    match accessTarget off size with
    | some (.limb _ _) | some .cmd => s.busy
    | some .status | none => false
  | .hostRead off size :: _ => s.readTakesFree off size
  | .complete :: _ | .reset :: _ | [] => false

end Sys2Proof.Machine
end

