-- ==== Sys2Proof/Safety.lean ====
section
/-! DEFINITION. What a safe run is, in the terms claims use: no step uses a limb that nothing has written (R103), none
breaks the BUSY rule (R903); and the view of a state that hides what an unwritten limb holds (R112). -/

namespace Sys2Proof.Machine

/-- R112's limb: none while nothing has written it since reset. -/
def Limb.view (l : Limb) : Option Word := if l.written then some l.value else none

/-- R112's record, with the model's own fields beside it. -/
structure SpecView where
  R : Vector (Vector (Option Word) 4) 16
  inflight : Option Word
  c : Bool
  cmp : BitVec 2
  err : BitVec 4
  esticky : Bool
  ovr : Bool
  berr : Bool
  events : List Event
  readLog : List Word
  freeCount : Nat
deriving DecidableEq, Repr

/-- The state as R112 gives it: the value of an unwritten limb is not in it. -/
def State.view (s : State) : SpecView :=
  { R := s.regs.map fun r => r.map Limb.view
    inflight := s.inflight
    c := s.c
    cmp := s.cmp
    err := s.err
    esticky := s.esticky
    ovr := s.ovr
    berr := s.berr
    events := s.events
    readLog := s.readLog
    freeCount := s.freeCount }

/-- The invariant of every reachable state (R108; 93 U14): CMP is not 11, ERR is at most 5. -/
def State.Inv (s : State) : Prop := s.cmp ≠ 0b11 ∧ s.err.toNat ≤ 5

/-- From s to t a command completed with ERR = NONE: the registers of `ds` are written whole, every other limb, the
sticky bits and the host's side are as before (R106, R802). What C and CMP become is not said here. -/
def State.DoneWriting (s t : State) (ds : List RegId) : Prop :=
  (∀ r, r ∉ ds → ∀ j, t.limbAt r j = s.limbAt r j) ∧ (∀ r, r ∈ ds → t.allWritten r = true) ∧
  t.err = 0 ∧ t.inflight = none ∧ t.esticky = s.esticky ∧ t.ovr = s.ovr ∧ t.berr = s.berr ∧
  t.events = s.events ∧ t.readLog = s.readLog ∧ t.freeCount = s.freeCount

/-- From s to t a command completed with the error `code`: no limb, C or CMP is written, ERR is the code, ESTICKY is
set, and the rest is as before (R802). -/
def State.DoneInError (s t : State) (code : BitVec 4) : Prop :=
  (∀ r j, t.limbAt r j = s.limbAt r j) ∧ t.c = s.c ∧ t.cmp = s.cmp ∧
  t.err = code ∧ t.esticky = true ∧ t.inflight = none ∧ t.ovr = s.ovr ∧ t.berr = s.berr ∧
  t.events = s.events ∧ t.readLog = s.readLog ∧ t.freeCount = s.freeCount

/-- The next step keeps the rules a program must obey (R902, R903). -/
def State.SafeStep (s : State) : Prop := s.usesUnwritten = false ∧ s.busyHazard = false

/-- n steps from s end in t, every one of them safe. -/
inductive SafeRun : Nat → State → State → Prop where
  | done (s : State) : SafeRun 0 s s
  | more {n : Nat} {s s' t : State} (safe : s.SafeStep) (first : step s = .next s') (rest : SafeRun n s' t) :
      SafeRun (n + 1) s t

end Sys2Proof.Machine
end

