-- ==== Sys2Proof/Certificates/Slice0/Obligations.lean ====
section
/-! DEFINITION. The statements for the provers. -/

open Sys2Proof Sys2Proof.Machine

/-! ### Reset, one step, the invariant -/

/-- R900. After reset STATUS is all zero, nothing is in flight, CMD reads 0, and no limb holds a value (the view of R112
has none). The reset input puts the state of R112 there from any state of the invariant, discarding what was in flight;
what it does with the model's own fields is not said here (ResetInputKeepsTheHostSide). No other step, so no command and no
host write, makes a written limb unwritten. -/
def Obligations.ResetHoldsTheStatedState : Prop :=
  (State.reset.inflight = none ∧ State.reset.c = false ∧ State.reset.cmp = 0 ∧ State.reset.err = 0 ∧
    State.reset.esticky = false ∧ State.reset.ovr = false ∧ State.reset.berr = false ∧
    State.reset.statusWord = 0 ∧ State.reset.readTarget .cmd = 0 ∧
    ∀ i j, (State.reset.limbAt i j).view = none) ∧
  (∀ (s : State) (es : List Event), s.Inv → s.events = .reset :: es →
    ∃ t, step s = .next t ∧ t.view =
      { State.reset.view with events := t.events, readLog := t.readLog, freeCount := t.freeCount }) ∧
  (∀ (s t : State) (i : RegId) (j : LimbId), (∀ es, s.events ≠ .reset :: es) → step s = .next t →
    (s.limbAt i j).written = true → (t.limbAt i j).written = true)

/-- The invariant of R108 and 93 U14 holds after reset. -/
def Obligations.ResetMeetsTheStatusInvariant : Prop := State.reset.Inv

/-- CMP is never 11 and ERR never 6 to 15 (R108): every step keeps that, from every state that has it. -/
def Obligations.StepKeepsTheStatusInvariant : Prop :=
  ∀ s t : State, s.Inv → step s = .next t → t.Inv

/-- The machine steps to a next state exactly from the states of the invariant, and is stuck in every other (93 U14). -/
def Obligations.StepAnswersNextExactlyOnTheInvariant : Prop :=
  ∀ s : State, (s.Inv → ∃ t, step s = .next t) ∧ (¬ s.Inv → step s = .fault .illegalStatus)

/-- When the in-flight word decodes to i and its completion comes next, or when no event is left, step is exec of i, with
the completion event taken off the list; and withFetchWord makes the very next step run the word it is given. Two clauses
are the model's choice: that CORE completes when no event is left (log 6, DEDUCED) and withFetchWord, which stands for the
host's CMD write (log 4, DESIGN CHOICE). -/
def Obligations.StepRunsTheDecodedCommand : Prop :=
  (∀ (s : State) (W : Word) (i : Instr) (es : List Event), s.Inv → s.inflight = some W → decode W = .ok i →
    s.events = .complete :: es → step s = exec i { s with events := es }) ∧
  (∀ (s : State) (W : Word) (i : Instr), s.Inv → s.inflight = some W → decode W = .ok i → s.events = [] →
    step s = exec i s) ∧
  (∀ (s : State) (nbits w : Nat) (i : Instr), s.Inv → decodeTableWord nbits w = some i →
    step (s.withFetchWord nbits w) = exec i { s with inflight := some (tableWord nbits w) })

/-! ### Decoding -/

/-- Words the command rules write out in their examples decode to the commands they stand for (R401 and the rest). -/
def Obligations.ExampleWordsDecode : Prop :=
  decode 0x00021301 = .ok (.addU 3 1 2) ∧ decode 0x00421310 = .ok (.mulw 3 1 2 4) ∧
  decode 0x00021344 = .ok (.divS 3 1 2) ∧ decode 0x00321447 = .ok (.mulmodS 4 1 2 3) ∧
  decode 0x00321409 = .ok (.expmodU 4 1 2 3) ∧ decode 0x0002134B = .ok (.shrS 3 1 2) ∧
  decode 0x0002104C = .ok (.cmpS 1 2) ∧ decode 0xFFFF0160 = .ok (.ldiS 1 0xFFFF) ∧
  decode 0x00321406 = .error .noRow ∧ decode 0x0000000100021301 = .error .upperHalf ∧
  decode 0x00331310 = .error .sameDestination

/-- R310. decode answers a command exactly when bits 63:32 are 0, a row of the table matches the word, and for MULW and
DIVMOD rd and rm differ; the command is that row's, with the word's fields. No two rows match one word. -/
def Obligations.DecodeFollowsTheTable : Prop :=
  (∀ (W : Word) (i : Instr), decode W = .ok i ↔
    W.extractLsb' 32 32 = 0 ∧
    ∃ row ∈ opcodeTable, W.extractLsb' 0 32 &&& row.format.mask = row.pattern ∧
      (row.mnemonic ∈ ["mulw", "divmod"] → W.extractLsb' 8 4 ≠ W.extractLsb' 20 4) ∧
      i = row.build (fieldsOf (W.extractLsb' 0 32))) ∧
  (∀ (w : BitVec 32) (p q : Nat) (hp : p < opcodeTable.length) (hq : q < opcodeTable.length),
    w &&& opcodeTable[p].format.mask = opcodeTable[p].pattern →
    w &&& opcodeTable[q].format.mask = opcodeTable[q].pattern → p = q)

/-- R311. The illegal words are the listed ones, and completing one writes no value register, leaves C and CMP, sets
ERR = 1 and ESTICKY. -/
def Obligations.IllegalWordsAreTheListedOnes : Prop :=
  (∀ W : Word, (∃ e, decode W = .error e) ↔
    let op := (W.extractLsb' 0 6).toNat
    let s := W.getLsbD 6
    let threeReg := op ∈ [0x01, 0x02, 0x03, 0x04, 0x08, 0x0A, 0x0B]
    (op = 0 ∨ (0x0D ≤ op ∧ op ≤ 0x0F) ∨ (0x12 ≤ op ∧ op ≤ 0x1F) ∨ 0x21 ≤ op) ∨
    W.getLsbD 7 = true ∨
    (op ≠ 0x20 ∧ W.extractLsb' 24 8 ≠ 0) ∨
    ((threeReg ∨ op = 0x0C) ∧ W.extractLsb' 20 4 ≠ 0) ∨
    (op = 0x0C ∧ W.extractLsb' 8 4 ≠ 0) ∨
    (op = 0x20 ∧ W.extractLsb' 12 4 ≠ 0) ∨
    (op = 0x06 ∧ s = false) ∨
    ((op = 0x10 ∨ op = 0x11) ∧ s = true) ∨
    ((op = 0x10 ∨ op = 0x11) ∧ W.extractLsb' 8 4 = W.extractLsb' 20 4) ∨
    W.extractLsb' 32 32 ≠ 0) ∧
  (∀ (W : Word) (e : IllegalWord) (s : State), decode W = .error e →
    ∃ t, completeWord W s = .next t ∧ s.DoneInError t 1)

/-- Every well-formed command's word decodes to it, with every operand at every value. -/
def Obligations.DecodeOfEncodeIsTheCommand : Prop :=
  ∀ i : Instr, i.wf = true → decode (encode i) = .ok i

/-- A word that decodes to a command is that command's word, and the command is well formed: no word is a second
spelling of a command, and there are no reserved-but-legal encodings (R312). -/
def Obligations.DecodedWordIsItsEncoding : Prop :=
  ∀ (W : Word) (i : Instr), decode W = .ok i → i.wf = true ∧ encode i = W

/-! ### Completion and errors -/

/-- R802. A command that ends with a nonzero code writes no value register, C or CMP, sets ERR to the code and ESTICKY,
and nothing is in flight; one that ends without writes ERR = NONE and leaves ESTICKY. -/
def Obligations.RaiseWritesOnlyTheOutcome : Prop :=
  ∀ (W : Word) (s t : State), completeWord W s = .next t →
    (t.err ≠ 0 → s.DoneInError t t.err) ∧
    (t.err = 0 → t.esticky = s.esticky ∧ t.inflight = none)

/-- R801. Each outcome code of a completing word has its one cause, and every completion ends with one of the six codes.
The causes of 2 to 4 are those of R803's order (a zero modulus is reported before a negative exponent). -/
def Obligations.OutcomeCodesHaveTheirCauses : Prop :=
  ∀ (W : Word) (s t : State), completeWord W s = .next t →
    t.err.toNat ≤ 5 ∧
    (t.err = 1 ↔ ∃ e, decode W = .error e) ∧
    (t.err = 2 ↔ ∃ rd ra rb rm, (decode W = .ok (.divU rd ra rb) ∨ decode W = .ok (.divS rd ra rb) ∨
      decode W = .ok (.divmod rd ra rb rm)) ∧ uval (s.x rb) = 0) ∧
    (t.err = 3 ↔ ∃ rd ra rb rm, (decode W = .ok (.addmodU rd ra rb rm) ∨ decode W = .ok (.addmodS rd ra rb rm) ∨
      decode W = .ok (.submodS rd ra rb rm) ∨ decode W = .ok (.mulmodU rd ra rb rm) ∨
      decode W = .ok (.mulmodS rd ra rb rm) ∨ decode W = .ok (.expmodU rd ra rb rm) ∨
      decode W = .ok (.expmodS rd ra rb rm)) ∧ uval (s.x rm) = 0) ∧
    (t.err = 4 ↔ ∃ rd ra rb rm, (decode W = .ok (.expS rd ra rb) ∨
      (decode W = .ok (.expmodS rd ra rb rm) ∧ uval (s.x rm) ≠ 0)) ∧ (s.x rb).getLsbD 255 = true) ∧
    (t.err = 5 ↔ ∃ rd ra rb, (decode W = .ok (.shlU rd ra rb) ∨ decode W = .ok (.shlS rd ra rb) ∨
      decode W = .ok (.shrU rd ra rb) ∨ decode W = .ok (.shrS rd ra rb)) ∧ (s.x rb).getLsbD 31 = true)

/-- The frame of every command: no limb outside its destinations changes, C changes only under ADD and SUB, CMP only
under CMP, and no command touches OVR, BERR, the coming events, the read log or the free-value counter (R102, R108). -/
def Obligations.EveryCommandKeepsTheRest : Prop :=
  ∀ (i : Instr) (s t : State), exec i s = .next t →
    (∀ r, r ∉ dests i → ∀ j, t.limbAt r j = s.limbAt r j) ∧
    (t.c ≠ s.c → ∃ rd ra rb, i = .addU rd ra rb ∨ i = .addS rd ra rb ∨ i = .subU rd ra rb ∨ i = .subS rd ra rb) ∧
    (t.cmp ≠ s.cmp → ∃ ra rb, i = .cmpU ra rb ∨ i = .cmpS ra rb) ∧
    t.ovr = s.ovr ∧ t.berr = s.berr ∧ t.events = s.events ∧ t.readLog = s.readLog ∧ t.freeCount = s.freeCount

/-! ### Adder and subtractor -/

/-- R401. -/
def Obligations.AddWritesWrappedSumAndCarry : Prop :=
  ∀ (rd ra rb : RegId) (s : State),
    decode (ruleWord 0x01 rd ra rb 0) = .ok (.addU rd ra rb) ∧ decode (ruleWord 0x41 rd ra rb 0) = .ok (.addS rd ra rb) ∧
    ∀ i ∈ [Instr.addU rd ra rb, Instr.addS rd ra rb], ∃ t, exec i s = .next t ∧
      t.x rd = enc (uval (s.x ra) + uval (s.x rb)) ∧ t.x rd = enc (sval (s.x ra) + sval (s.x rb)) ∧
      (t.c = true ↔ 2 ^ 256 ≤ uval (s.x ra) + uval (s.x rb)) ∧ t.cmp = s.cmp ∧ s.DoneWriting t [rd]

/-- R402. -/
def Obligations.SubWritesWrappedDifferenceAndBorrow : Prop :=
  ∀ (rd ra rb : RegId) (s : State),
    decode (ruleWord 0x02 rd ra rb 0) = .ok (.subU rd ra rb) ∧ decode (ruleWord 0x42 rd ra rb 0) = .ok (.subS rd ra rb) ∧
    ∀ i ∈ [Instr.subU rd ra rb, Instr.subS rd ra rb], ∃ t, exec i s = .next t ∧
      t.x rd = enc ((uval (s.x ra) : Int) - uval (s.x rb)) ∧ t.x rd = enc (sval (s.x ra) - sval (s.x rb)) ∧
      (t.c = true ↔ uval (s.x ra) < uval (s.x rb)) ∧ t.cmp = s.cmp ∧ s.DoneWriting t [rd]

/-- The laws of 40_add_sub §3, which the spec marks as its own inference: the carry and borrow identities, and SUB after
ADD with the same b gives a back with the same C. -/
def Obligations.SubUndoesAddWithTheSameCarry : Prop :=
  ∀ (rd ra rb re : RegId) (s : State), rd ≠ rb →
    ∃ t u, exec (.addU rd ra rb) s = .next t ∧ exec (.subU re rd rb) t = .next u ∧
      uval (s.x ra) + uval (s.x rb) = uval (t.x rd) + 2 ^ 256 * t.c.toNat ∧
      (uval (t.x rd) : Int) - uval (t.x rb) = uval (u.x re) - 2 ^ 256 * u.c.toNat ∧
      u.x re = s.x ra ∧ u.c = t.c

/-! ### Multiplier -/

/-- R451. That the product's low half is the encoding of the product of the signed values too is the spec's own inference
("derived: sval = uval mod 2^256" in R451). -/
def Obligations.MulWritesLowProduct : Prop :=
  ∀ (rd ra rb : RegId) (s : State),
    decode (ruleWord 0x03 rd ra rb 0) = .ok (.mulU rd ra rb) ∧ decode (ruleWord 0x43 rd ra rb 0) = .ok (.mulS rd ra rb) ∧
    ∀ i ∈ [Instr.mulU rd ra rb, Instr.mulS rd ra rb], ∃ t, exec i s = .next t ∧
      t.x rd = enc (uval (s.x ra) * uval (s.x rb)) ∧ t.x rd = enc (sval (s.x ra) * sval (s.x rb)) ∧
      t.c = s.c ∧ t.cmp = s.cmp ∧ s.DoneWriting t [rd]

/-- R452. -/
def Obligations.MulwWritesBothHalves : Prop :=
  ∀ (rd ra rb rh : RegId) (s : State),
    (∃ e, decode (ruleWord 0x50 rd ra rb rh) = .error e) ∧
    (rd = rh → (∃ e, decode (ruleWord 0x10 rd ra rb rh) = .error e) ∧
      ∃ t, exec (.mulw rd ra rb rh) s = .next t ∧ s.DoneInError t 1) ∧
    (rd ≠ rh → decode (ruleWord 0x10 rd ra rb rh) = .ok (.mulw rd ra rb rh) ∧
      ∃ t, exec (.mulw rd ra rb rh) s = .next t ∧
        uval (t.x rh) * 2 ^ 256 + uval (t.x rd) = uval (s.x ra) * uval (s.x rb) ∧
        t.c = s.c ∧ t.cmp = s.cmp ∧ s.DoneWriting t [rd, rh])

/-! ### Divider -/

/-- R501. -/
def Obligations.DivUWritesQuotientOrRaises : Prop :=
  ∀ (rd ra rb : RegId) (s : State), decode (ruleWord 0x04 rd ra rb 0) = .ok (.divU rd ra rb) ∧
    (uval (s.x rb) = 0 → ∃ t, exec (.divU rd ra rb) s = .next t ∧ s.DoneInError t 2) ∧
    (uval (s.x rb) ≠ 0 → ∃ t, exec (.divU rd ra rb) s = .next t ∧
      uval (t.x rd) = uval (s.x ra) / uval (s.x rb) ∧ t.c = s.c ∧ t.cmp = s.cmp ∧ s.DoneWriting t [rd])

/-- R502. -/
def Obligations.DivmodWritesQuotientAndRemainder : Prop :=
  ∀ (rq ra rb rr : RegId) (s : State),
    (∃ e, decode (ruleWord 0x51 rq ra rb rr) = .error e) ∧
    (rq = rr → (∃ e, decode (ruleWord 0x11 rq ra rb rr) = .error e) ∧
      ∃ t, exec (.divmod rq ra rb rr) s = .next t ∧ s.DoneInError t 1) ∧
    (rq ≠ rr → decode (ruleWord 0x11 rq ra rb rr) = .ok (.divmod rq ra rb rr)) ∧
    (rq ≠ rr → uval (s.x rb) = 0 → ∃ t, exec (.divmod rq ra rb rr) s = .next t ∧ s.DoneInError t 2) ∧
    (rq ≠ rr → uval (s.x rb) ≠ 0 → ∃ t, exec (.divmod rq ra rb rr) s = .next t ∧
      uval (s.x ra) = uval (t.x rq) * uval (s.x rb) + uval (t.x rr) ∧ uval (t.x rr) < uval (s.x rb) ∧
      t.c = s.c ∧ t.cmp = s.cmp ∧ s.DoneWriting t [rq, rr])

/-- R503. The quotient of Min by −1 wraps to Min. -/
def Obligations.DivSTruncatesTowardZeroOrRaises : Prop :=
  ∀ (rd ra rb : RegId) (s : State), decode (ruleWord 0x44 rd ra rb 0) = .ok (.divS rd ra rb) ∧
    (sval (s.x rb) = 0 → ∃ t, exec (.divS rd ra rb) s = .next t ∧ s.DoneInError t 2) ∧
    (sval (s.x rb) ≠ 0 → ∃ t, exec (.divS rd ra rb) s = .next t ∧
      t.x rd = enc (tdiv (sval (s.x ra)) (sval (s.x rb))) ∧
      (sval (s.x ra) = -2 ^ 255 ∧ sval (s.x rb) = -1 → t.x rd = s.x ra) ∧
      t.c = s.c ∧ t.cmp = s.cmp ∧ s.DoneWriting t [rd])

/-- R500's reference datapath, the restoring loop over N dividend bits, gives the exact quotient and remainder that DIV,
DIVMOD (N = 256) and the modular commands (N = 512) use. The result sentence is the spec's own inference from the
pseudocode; that the meanings use the result is log 10. -/
def Obligations.RestoringDividerIsExact : Prop :=
  ∀ (n : Nat) (A : BitVec n) (B : Value), B ≠ 0 →
    (divModReference A B).1.toNat = A.toNat / uval B ∧ uval (divModReference A B).2 = A.toNat % uval B ∧
    divModReference A B = divModN A B

/-- The division identity of 42_divide §3, the spec's own inference: after DIVMOD, MUL of the divisor by the quotient and
ADD of the remainder give the dividend back, and the ADD writes C = 0. -/
def Obligations.DivmodMulAddReconstructTheDividend : Prop :=
  ∀ (rq rr ra rb rt : RegId) (s : State), rq ≠ rr → rb ≠ rq → rb ≠ rr → rt ≠ rr → uval (s.x rb) ≠ 0 →
    ∃ s1 s2 s3, exec (.divmod rq ra rb rr) s = .next s1 ∧ exec (.mulU rt rb rq) s1 = .next s2 ∧
      exec (.addU rt rt rr) s2 = .next s3 ∧ s3.x rt = s.x ra ∧ s3.c = false

/-! ### Modular reduction -/

/-- R551. -/
def Obligations.AddmodUReducesTheExactSum : Prop :=
  ∀ (rd ra rb rm : RegId) (s : State), decode (ruleWord 0x05 rd ra rb rm) = .ok (.addmodU rd ra rb rm) ∧
    (uval (s.x rm) = 0 → ∃ t, exec (.addmodU rd ra rb rm) s = .next t ∧ s.DoneInError t 3) ∧
    (uval (s.x rm) ≠ 0 → ∃ t, exec (.addmodU rd ra rb rm) s = .next t ∧
      uval (t.x rd) = (uval (s.x ra) + uval (s.x rb)) % uval (s.x rm) ∧
      t.c = s.c ∧ t.cmp = s.cmp ∧ s.DoneWriting t [rd])

/-- R552. -/
def Obligations.MulmodUReducesTheExactProduct : Prop :=
  ∀ (rd ra rb rm : RegId) (s : State), decode (ruleWord 0x07 rd ra rb rm) = .ok (.mulmodU rd ra rb rm) ∧
    (uval (s.x rm) = 0 → ∃ t, exec (.mulmodU rd ra rb rm) s = .next t ∧ s.DoneInError t 3) ∧
    (uval (s.x rm) ≠ 0 → ∃ t, exec (.mulmodU rd ra rb rm) s = .next t ∧
      uval (t.x rd) = uval (s.x ra) * uval (s.x rb) % uval (s.x rm) ∧
      t.c = s.c ∧ t.cmp = s.cmp ∧ s.DoneWriting t [rd])

/-- R553. -/
def Obligations.AddmodSKeepsTheSignOfTheSum : Prop :=
  ∀ (rd ra rb rm : RegId) (s : State), decode (ruleWord 0x45 rd ra rb rm) = .ok (.addmodS rd ra rb rm) ∧
    (sval (s.x rm) = 0 → ∃ t, exec (.addmodS rd ra rb rm) s = .next t ∧ s.DoneInError t 3) ∧
    (sval (s.x rm) ≠ 0 → ∃ t, exec (.addmodS rd ra rb rm) s = .next t ∧
      sval (t.x rd) = tmod (sval (s.x ra) + sval (s.x rb)) (sval (s.x rm)).natAbs ∧
      t.c = s.c ∧ t.cmp = s.cmp ∧ s.DoneWriting t [rd])

/-- R554. SUBMOD with s = 0 is no command. -/
def Obligations.SubmodSKeepsTheSignOfTheDifference : Prop :=
  ∀ (rd ra rb rm : RegId) (s : State), decode (ruleWord 0x46 rd ra rb rm) = .ok (.submodS rd ra rb rm) ∧
    (∃ e, decode (ruleWord 0x06 rd ra rb rm) = .error e) ∧
    (sval (s.x rm) = 0 → ∃ t, exec (.submodS rd ra rb rm) s = .next t ∧ s.DoneInError t 3) ∧
    (sval (s.x rm) ≠ 0 → ∃ t, exec (.submodS rd ra rb rm) s = .next t ∧
      sval (t.x rd) = tmod (sval (s.x ra) - sval (s.x rb)) (sval (s.x rm)).natAbs ∧
      t.c = s.c ∧ t.cmp = s.cmp ∧ s.DoneWriting t [rd])

/-- R555. -/
def Obligations.MulmodSKeepsTheSignOfTheProduct : Prop :=
  ∀ (rd ra rb rm : RegId) (s : State), decode (ruleWord 0x47 rd ra rb rm) = .ok (.mulmodS rd ra rb rm) ∧
    (sval (s.x rm) = 0 → ∃ t, exec (.mulmodS rd ra rb rm) s = .next t ∧ s.DoneInError t 3) ∧
    (sval (s.x rm) ≠ 0 → ∃ t, exec (.mulmodS rd ra rb rm) s = .next t ∧
      sval (t.x rd) = tmod (sval (s.x ra) * sval (s.x rb)) (sval (s.x rm)).natAbs ∧
      t.c = s.c ∧ t.cmp = s.cmp ∧ s.DoneWriting t [rd])

/-- On operands with bit 255 = 0 the `.u` and `.s` modular commands reach the same state. For ADDMOD and MULMOD this is the
law of 43_modular §4, the spec's own inference; for EXPMOD, m = 0 included, it follows from R603 and R604
(44_exponent §2). -/
def Obligations.SignedAndUnsignedModularAgreeBelowTheSign : Prop :=
  ∀ (rd ra rb rm : RegId) (s : State), isNeg (s.x ra) = false → isNeg (s.x rb) = false → isNeg (s.x rm) = false →
    exec (.addmodU rd ra rb rm) s = exec (.addmodS rd ra rb rm) s ∧
    exec (.mulmodU rd ra rb rm) s = exec (.mulmodS rd ra rb rm) s ∧
    exec (.expmodU rd ra rb rm) s = exec (.expmodS rd ra rb rm) s

/-! ### Exponentiation -/

/-- R601. For e = 0 the result is One, for every a, as R601's corner cases say (log 11). -/
def Obligations.ExpUWritesThePower : Prop :=
  ∀ (rd ra rb : RegId) (s : State), decode (ruleWord 0x08 rd ra rb 0) = .ok (.expU rd ra rb) ∧
    ∃ t, exec (.expU rd ra rb) s = .next t ∧ uval (t.x rd) = uval (s.x ra) ^ uval (s.x rb) % 2 ^ 256 ∧
      t.c = s.c ∧ t.cmp = s.cmp ∧ s.DoneWriting t [rd]

/-- R602. -/
def Obligations.ExpSWritesThePowerOrRaises : Prop :=
  ∀ (rd ra rb : RegId) (s : State), decode (ruleWord 0x48 rd ra rb 0) = .ok (.expS rd ra rb) ∧
    ((s.x rb).getLsbD 255 = true → ∃ t, exec (.expS rd ra rb) s = .next t ∧ s.DoneInError t 4) ∧
    ((s.x rb).getLsbD 255 = false → ∃ t, exec (.expS rd ra rb) s = .next t ∧
      t.x rd = enc (sval (s.x ra) ^ uval (s.x rb)) ∧
      uval (t.x rd) = uval (s.x ra) ^ uval (s.x rb) % 2 ^ 256 ∧
      t.c = s.c ∧ t.cmp = s.cmp ∧ s.DoneWriting t [rd])

/-- R603. -/
def Obligations.ExpmodUWritesTheResidue : Prop :=
  ∀ (rd ra rb rm : RegId) (s : State), decode (ruleWord 0x09 rd ra rb rm) = .ok (.expmodU rd ra rb rm) ∧
    (uval (s.x rm) = 0 → ∃ t, exec (.expmodU rd ra rb rm) s = .next t ∧ s.DoneInError t 3) ∧
    (uval (s.x rm) ≠ 0 → ∃ t, exec (.expmodU rd ra rb rm) s = .next t ∧
      uval (t.x rd) = uval (s.x ra) ^ uval (s.x rb) % uval (s.x rm) ∧
      t.c = s.c ∧ t.cmp = s.cmp ∧ s.DoneWriting t [rd])

/-- R604. -/
def Obligations.ExpmodSKeepsTheSignOfThePower : Prop :=
  ∀ (rd ra rb rm : RegId) (s : State), decode (ruleWord 0x49 rd ra rb rm) = .ok (.expmodS rd ra rb rm) ∧
    (sval (s.x rm) = 0 → ∃ t, exec (.expmodS rd ra rb rm) s = .next t ∧ s.DoneInError t 3) ∧
    (sval (s.x rm) ≠ 0 → (s.x rb).getLsbD 255 = true →
      ∃ t, exec (.expmodS rd ra rb rm) s = .next t ∧ s.DoneInError t 4) ∧
    (sval (s.x rm) ≠ 0 → (s.x rb).getLsbD 255 = false → ∃ t, exec (.expmodS rd ra rb rm) s = .next t ∧
      sval (t.x rd) = tmod (sval (s.x ra) ^ uval (s.x rb)) (sval (s.x rm)).natAbs ∧
      t.c = s.c ∧ t.cmp = s.cmp ∧ s.DoneWriting t [rd])

/-! ### Shifter -/

/-- R651. -/
def Obligations.ShlShiftsLeftOrRaises : Prop :=
  ∀ (rd ra rb : RegId) (s : State),
    decode (ruleWord 0x0A rd ra rb 0) = .ok (.shlU rd ra rb) ∧ decode (ruleWord 0x4A rd ra rb 0) = .ok (.shlS rd ra rb) ∧
    ∀ i ∈ [Instr.shlU rd ra rb, Instr.shlS rd ra rb],
      let n := sint32 ((s.x rb).extractLsb' 0 32)
      (n < 0 → ∃ t, exec i s = .next t ∧ s.DoneInError t 5) ∧
      (0 ≤ n → ∃ t, exec i s = .next t ∧
        t.x rd = (if 256 ≤ n then 0 else enc (uval (s.x ra) * 2 ^ n.toNat)) ∧
        t.c = s.c ∧ t.cmp = s.cmp ∧ s.DoneWriting t [rd])

/-- R652. -/
def Obligations.ShrUShiftsRightOrRaises : Prop :=
  ∀ (rd ra rb : RegId) (s : State), decode (ruleWord 0x0B rd ra rb 0) = .ok (.shrU rd ra rb) ∧
      let n := sint32 ((s.x rb).extractLsb' 0 32)
      (n < 0 → ∃ t, exec (.shrU rd ra rb) s = .next t ∧ s.DoneInError t 5) ∧
      (0 ≤ n → ∃ t, exec (.shrU rd ra rb) s = .next t ∧
        uval (t.x rd) = (if 256 ≤ n then 0 else uval (s.x ra) / 2 ^ n.toNat) ∧
        t.c = s.c ∧ t.cmp = s.cmp ∧ s.DoneWriting t [rd])

/-- R653. From 256 on the result is Zero or all ones, by the sign. -/
def Obligations.ShrSFloorsOrRaises : Prop :=
  ∀ (rd ra rb : RegId) (s : State), decode (ruleWord 0x4B rd ra rb 0) = .ok (.shrS rd ra rb) ∧
      let n := sint32 ((s.x rb).extractLsb' 0 32)
      (n < 0 → ∃ t, exec (.shrS rd ra rb) s = .next t ∧ s.DoneInError t 5) ∧
      (0 ≤ n → ∃ t, exec (.shrS rd ra rb) s = .next t ∧
        (n < 256 → sval (t.x rd) = sval (s.x ra) / 2 ^ n.toNat) ∧
        (256 ≤ n → t.x rd = if (s.x ra).getLsbD 255 then BitVec.allOnes 256 else 0) ∧
        t.c = s.c ∧ t.cmp = s.cmp ∧ s.DoneWriting t [rd])

/-- Laws of 45_shift §3, the spec's own inference: a shift left by n < 256 writes what MUL by 2^n writes, and a shift
right what DIV.u by 2^n writes. -/
def Obligations.ShiftsAreMulAndDivByPowersOfTwo : Prop :=
  ∀ (rd ra rb rp : RegId) (s : State) (n : Nat), n < 256 → shiftAmount (s.x rb) = n → s.x rp = enc (2 ^ n) →
    exec (.shlU rd ra rb) s = exec (.mulU rd ra rp) s ∧ exec (.shrU rd ra rb) s = exec (.divU rd ra rp) s

/-! ### Comparator and immediate load -/

/-- R701. -/
def Obligations.CmpUWritesTheUnsignedOrder : Prop :=
  ∀ (ra rb : RegId) (s : State), decode (ruleWord 0x0C 0 ra rb 0) = .ok (.cmpU ra rb) ∧
    ∃ t, exec (.cmpU ra rb) s = .next t ∧
      (uval (s.x ra) = uval (s.x rb) → t.cmp = 0b00) ∧ (uval (s.x ra) < uval (s.x rb) → t.cmp = 0b01) ∧
      (uval (s.x rb) < uval (s.x ra) → t.cmp = 0b10) ∧ t.c = s.c ∧ s.DoneWriting t []

/-- R702. -/
def Obligations.CmpSWritesTheSignedOrder : Prop :=
  ∀ (ra rb : RegId) (s : State), decode (ruleWord 0x4C 0 ra rb 0) = .ok (.cmpS ra rb) ∧
    ∃ t, exec (.cmpS ra rb) s = .next t ∧
      (sval (s.x ra) = sval (s.x rb) → t.cmp = 0b00) ∧ (sval (s.x ra) < sval (s.x rb) → t.cmp = 0b01) ∧
      (sval (s.x rb) < sval (s.x ra) → t.cmp = 0b10) ∧ t.c = s.c ∧ s.DoneWriting t []

/-- R703. -/
def Obligations.LdiWritesTheExtendedImmediate : Prop :=
  ∀ (rd : RegId) (imm : BitVec 16) (s : State),
    decode (ruleWordI 0x20 rd imm) = .ok (.ldiU rd imm) ∧ decode (ruleWordI 0x60 rd imm) = .ok (.ldiS rd imm) ∧
    (∃ t, exec (.ldiU rd imm) s = .next t ∧ uval (t.x rd) = imm.toNat ∧ t.c = s.c ∧ t.cmp = s.cmp ∧ s.DoneWriting t [rd]) ∧
    (∃ t, exec (.ldiS rd imm) s = .next t ∧ sval (t.x rd) = imm.toInt ∧ t.c = s.c ∧ t.cmp = s.cmp ∧ s.DoneWriting t [rd])

/-- Laws of 46_compare_load §3, the spec's own inference: SUB's C is 1 exactly when CMP.u gives LESS, CMP is
antisymmetric, and EQUAL does not depend on the type. -/
def Obligations.ComparisonsAgreeWithEachOtherAndWithSub : Prop :=
  ∀ (rd ra rb : RegId) (s : State), ∃ t u u' v v',
    exec (.subU rd ra rb) s = .next t ∧ exec (.cmpU ra rb) s = .next u ∧ exec (.cmpU rb ra) s = .next u' ∧
    exec (.cmpS ra rb) s = .next v ∧ exec (.cmpS rb ra) s = .next v' ∧
    (t.c = true ↔ u.cmp = 0b01) ∧ (u.cmp = 0b01 ↔ u'.cmp = 0b10) ∧ (v.cmp = 0b01 ↔ v'.cmp = 0b10) ∧
    (u.cmp = 0b00 ↔ v.cmp = 0b00) ∧ (u.cmp = 0b00 ↔ s.x ra = s.x rb)

/-! ### The host's register window and STATUS -/

/-- R201. An access that is not 8 bytes at an 8-aligned offset below 0x210 only sets BERR: a write is ignored, a read
returns 0. -/
def Obligations.UndefinedAccessesOnlySetBerr : Prop :=
  ∀ (s : State) (off : Offset) (size : AccessSize) (v : Word) (es : List Event), s.Inv →
    (size ≠ .b8 ∨ off.toNat % 8 ≠ 0 ∨ 0x208 < off.toNat) →
    (s.events = .hostWrite off size v :: es → step s = .next { s with events := es, berr := true }) ∧
    (s.events = .hostRead off size :: es →
      step s = .next { s with events := es, berr := true, readLog := 0 :: s.readLog })

/-- R203. Value-register access: at BUSY = 0 a read returns the limb and a write replaces that limb and no other; at
BUSY = 1 a read returns some 64-bit word and a write is dropped and sets OVR. Neither changes anything else. -/
def Obligations.LimbAccessReadsAndWritesOneLimb : Prop :=
  ∀ (s : State) (i : RegId) (j : LimbId) (off : Offset) (v : Word) (es : List Event), s.Inv →
    off.toNat = 0x20 * i.val + 8 * j.val →
    (s.inflight = none → s.events = .hostRead off .b8 :: es →
      step s = .next { s with events := es, readLog := (s.limbAt i j).value :: s.readLog }) ∧
    (s.inflight = none → s.events = .hostWrite off .b8 v :: es → ∃ t, step s = .next t ∧
      t.limbAt i j = ⟨v, true⟩ ∧ (∀ i' j', (i', j') ≠ (i, j) → t.limbAt i' j' = s.limbAt i' j') ∧
      t = { s with events := es, regs := t.regs }) ∧
    (s.inflight ≠ none → s.events = .hostRead off .b8 :: es → ∃ w n,
      step s = .next { s with events := es, readLog := w :: s.readLog, freeCount := n }) ∧
    (s.inflight ≠ none → s.events = .hostWrite off .b8 v :: es → step s = .next { s with events := es, ovr := true })

/-- R202. The 32 bytes of Ri's four limbs, each limb little-endian at its offset, are the little-endian encoding of
uval(x[i]): byte b is bits 8b+7:8b. -/
def Obligations.RegisterBytesAreLittleEndian : Prop :=
  ∀ (s : State) (i : RegId) (j : LimbId) (k : Nat) (es : List Event), s.Inv → s.inflight = none → k < 8 →
    s.events = .hostRead (limbOffset i j) .b8 :: es →
    ∃ t w, step s = .next t ∧ t.readLog = w :: s.readLog ∧
      wordByte w k = (s.x i).extractLsb' (8 * (8 * j.val + k)) 8

/-- R107. A CMD write at BUSY = 0 puts the whole word in flight; at BUSY = 1 it is dropped and sets OVR; a CMD read
returns 0 and has no effect; a word with a nonzero upper half completes with ERR = 1. -/
def Obligations.CmdWriteIssuesOneCommand : Prop :=
  ∀ (s : State) (v : Word) (es : List Event), s.Inv →
    (s.inflight = none → s.events = .hostWrite 0x200 .b8 v :: es →
      step s = .next { s with events := es, inflight := some v }) ∧
    (s.inflight ≠ none → s.events = .hostWrite 0x200 .b8 v :: es → step s = .next { s with events := es, ovr := true }) ∧
    (s.events = .hostRead 0x200 .b8 :: es → step s = .next { s with events := es, readLog := 0 :: s.readLog }) ∧
    (v.extractLsb' 32 32 ≠ 0 → ∃ t, completeWord v s = .next t ∧ t.err = 1)

/-- The STATUS word's fields are where R108 puts them, and a STATUS read returns that word whether BUSY is 0 or 1 and
changes nothing. -/
def Obligations.StatusReadReturnsItsFields : Prop :=
  ∀ (s : State) (es : List Event), s.Inv → s.events = .hostRead 0x208 .b8 :: es →
    ∃ w, step s = .next { s with events := es, readLog := w :: s.readLog } ∧
      (w.getLsbD 0 = true ↔ s.inflight ≠ none) ∧ w.getLsbD 1 = s.c ∧ w.extractLsb' 2 2 = s.cmp ∧
      w.extractLsb' 4 4 = s.err ∧ w.getLsbD 8 = s.esticky ∧ w.getLsbD 9 = s.ovr ∧ w.getLsbD 10 = s.berr ∧
      w.extractLsb' 11 53 = 0

/-- A STATUS write clears, of bits 8, 9 and 10, those written 1, and changes nothing else, whether BUSY is 0 or 1
(R108). -/
def Obligations.StatusWriteClearsWrittenOnes : Prop :=
  ∀ (s : State) (v : Word) (es : List Event), s.Inv → s.events = .hostWrite 0x208 .b8 v :: es →
    step s = .next { s with
      events := es
      esticky := if v.getLsbD 8 then false else s.esticky
      ovr := if v.getLsbD 9 then false else s.ovr
      berr := if v.getLsbD 10 then false else s.berr }

/-- "C, CMP and ERR change only at a command's completion" (R108), and by the reset input (R900). -/
def Obligations.FlagsChangeOnlyAtCompletion : Prop :=
  ∀ s t : State, step s = .next t → (t.c ≠ s.c ∨ t.cmp ≠ s.cmp ∨ t.err ≠ s.err) →
    (∃ es, s.events = .reset :: es) ∨
    (s.inflight ≠ none ∧ t.inflight = none ∧ (s.events = [] ∨ ∃ es, s.events = .complete :: es))

/-- ESTICKY, OVR and BERR are cleared only by a host STATUS write of 1 to the bit, or by reset (R807), and set only by
what R108 names: a failing completion, a dropped write, an undefined access. -/
def Obligations.StickyBitsAreSetAndClearedAsNamed : Prop :=
  ∀ s t : State, step s = .next t →
    (s.esticky = true → t.esticky = false → (∃ es, s.events = .reset :: es) ∨
      ∃ v es, s.events = .hostWrite 0x208 .b8 v :: es ∧ v.getLsbD 8 = true) ∧
    (s.ovr = true → t.ovr = false → (∃ es, s.events = .reset :: es) ∨
      ∃ v es, s.events = .hostWrite 0x208 .b8 v :: es ∧ v.getLsbD 9 = true) ∧
    (s.berr = true → t.berr = false → (∃ es, s.events = .reset :: es) ∨
      ∃ v es, s.events = .hostWrite 0x208 .b8 v :: es ∧ v.getLsbD 10 = true) ∧
    (s.esticky = false → t.esticky = true → s.inflight ≠ none ∧ t.inflight = none ∧ t.err ≠ 0) ∧
    (s.ovr = false → t.ovr = true → s.inflight ≠ none ∧
      ∃ off v es, s.events = .hostWrite off .b8 v :: es ∧ off.toNat % 8 = 0 ∧ off.toNat ≤ 0x200) ∧
    (s.berr = false → t.berr = true → ∃ off size es,
      (s.events = .hostRead off size :: es ∨ ∃ v, s.events = .hostWrite off size v :: es) ∧
      (size ≠ .b8 ∨ off.toNat % 8 ≠ 0 ∨ 0x208 < off.toNat))

/-- The window is the 1 KiB at CORE_BASE, which is 1 KiB aligned (R200): an address reaches CORE exactly when it is
CORE_BASE + off for an offset below 1024, and then as that offset. -/
def Obligations.WindowIsOneKibAtCoreBase : Prop :=
  1024 ∣ Config.coreBase ∧ (∀ off : Offset, windowOffset (Config.coreBase + off.toNat) = some off) ∧
  ∀ addr : Nat, windowOffset addr = none ↔ addr < Config.coreBase ∨ Config.coreBase + 1024 ≤ addr

/-! ### Whole-machine rules -/

/-- No run may depend on what an unwritten limb holds (93 U1, D33; the model's value there is log 1): two states that
differ only there step alike, and again differ only there, whenever the step uses no unwritten limb. -/
def Obligations.UnwrittenLimbsDoNotMatter : Prop :=
  ∀ s t s' : State, s.view = t.view → s.usesUnwritten = false → step s = .next s' →
    ∃ t', step t = .next t' ∧ s'.view = t'.view

/-- Every issued command completes after finitely many steps (R907), unless a reset input discards it (R900). From any
state of the invariant, one step more than there are events leaves no event and nothing in flight. With W in flight and no
reset among the events, the run comes, after at most as many steps as there are events, to a state that still holds W, with
the registers, C, CMP and ERR as they were; its next step is the completion of W, and then nothing is in flight. That CORE
completes when no event is left is the model's form of R908's fairness (log 6, DEDUCED). -/
def Obligations.EveryIssuedCommandCompletes : Prop :=
  (∀ s : State, s.Inv → ∃ t, core.run (s.events.length + 1) s = .next t ∧ t.events = [] ∧ t.inflight = none) ∧
  (∀ (s : State) (W : Word), s.Inv → s.inflight = some W → Event.reset ∉ s.events →
    ∃ (k : Nat) (u t : State), k ≤ s.events.length ∧ core.run k s = .next u ∧
      u.inflight = some W ∧ u.regs = s.regs ∧ u.c = s.c ∧ u.cmp = s.cmp ∧ u.err = s.err ∧
      completeWord W { u with events := u.events.tail } = .next t ∧
      core.run (k + 1) s = .next t ∧ t.inflight = none)

/-- R102: a limb changes only by the reset input, by a host write of that limb made while BUSY = 0, or by the completion
of a command that names its register as a destination. -/
def Obligations.RegistersChangeOnlyAsNamed : Prop :=
  ∀ (s t : State) (i : RegId) (j : LimbId), step s = .next t → t.limbAt i j ≠ s.limbAt i j →
    (∃ es, s.events = .reset :: es) ∨
    (s.inflight = none ∧ ∃ off v es, s.events = .hostWrite off .b8 v :: es ∧ off.toNat = 0x20 * i.val + 8 * j.val ∧
      t.limbAt i j = ⟨v, true⟩) ∨
    (∃ W c, s.inflight = some W ∧ t.inflight = none ∧ decode W = .ok c ∧ i ∈ dests c)

/-- R105: a word comes in flight only by a CMD write made while nothing is, and the word in flight stays the same until
it completes or the reset input discards it; every step takes exactly the next event off the list (log 3). -/
def Obligations.OneCommandIsInFlightAtATime : Prop :=
  ∀ s t : State, step s = .next t →
    (∀ W, s.inflight = none → t.inflight = some W → ∃ es, s.events = .hostWrite 0x200 .b8 W :: es) ∧
    (∀ W, s.inflight = some W → t.inflight = some W ∨ (t.inflight = none ∧
      ((∃ es, s.events = .reset :: es) ∨ s.events = [] ∨ ∃ es, s.events = .complete :: es))) ∧
    t.events = s.events.tail

/-! ### The host's side -/

/-- R750: the constants of each type, as 256-bit patterns with their values. -/
def Obligations.ConstantsHaveTheirValues : Prop :=
  (uval zeroValue = 0 ∧ sval zeroValue = 0 ∧ toLimbs zeroValue = [0, 0, 0, 0]) ∧
  (uval oneValue = 1 ∧ sval oneValue = 1 ∧ toLimbs oneValue = [1, 0, 0, 0]) ∧
  (uval minUnsigned = 0 ∧ uval maxUnsigned = 2 ^ 256 - 1 ∧ toLimbs maxUnsigned =
    [0xFFFFFFFFFFFFFFFF, 0xFFFFFFFFFFFFFFFF, 0xFFFFFFFFFFFFFFFF, 0xFFFFFFFFFFFFFFFF]) ∧
  (sval minSigned = -2 ^ 255 ∧ toLimbs minSigned = [0, 0, 0, 0x8000000000000000]) ∧
  (sval maxSigned = 2 ^ 255 - 1 ∧ toLimbs maxSigned =
    [0xFFFFFFFFFFFFFFFF, 0xFFFFFFFFFFFFFFFF, 0xFFFFFFFFFFFFFFFF, 0x7FFFFFFFFFFFFFFF])

/-- The command sequences of 48_host_conversions §1 (the spec's own inference) build Min_s and Max_s in rd, whatever the
registers held, with t another register. -/
def Obligations.ConstantSequencesBuildMinAndMax : Prop :=
  ∀ (rd t : RegId) (s : State), rd ≠ t →
    (∃ s1 s2 s3, exec (.ldiU rd 1) s = .next s1 ∧ exec (.ldiU t 255) s1 = .next s2 ∧
      exec (.shlU rd rd t) s2 = .next s3 ∧ s3.x rd = minSigned ∧
      buildMinSigned rd t = [.ldiU rd 1, .ldiU t 255, .shlU rd rd t]) ∧
    (∃ s1 s2 s3, exec (.ldiS rd 0xFFFF) s = .next s1 ∧ exec (.ldiU t 1) s1 = .next s2 ∧
      exec (.shrU rd rd t) s2 = .next s3 ∧ s3.x rd = maxSigned ∧
      buildMaxSigned rd t = [.ldiS rd 0xFFFF, .ldiU t 1, .shrU rd rd t])

/-- R752. FromArbitraryPrecision(z), written as its four limbs at 0x20·i + 8·j while BUSY = 0, leaves enc(z) in Ri; never
rejected, for any integer z, the same for both types. -/
def Obligations.WritingFourLimbsWritesTheValue : Prop :=
  ∀ (s : State) (i : RegId) (z : Int), s.Inv → s.inflight = none →
    s.events = writeRegister i (fromArbitraryPrecision z) →
    ∃ t, core.run 4 s = .next t ∧ t.x i = enc z ∧ (uval (t.x i) : Int) = z % 2 ^ 256 ∧
      (∀ r j, r ≠ i → t.limbAt r j = s.limbAt r j) ∧ t = { s with events := [], regs := t.regs }

/-- The round trip of 48_host_conversions §3 (the spec's own inference), both ways and for both types. -/
def Obligations.ConversionsRoundTrip : Prop :=
  (∀ v : Value, fromArbitraryPrecision (toArbitraryUnsigned v) = v ∧ fromArbitraryPrecision (toArbitrarySigned v) = v) ∧
  (∀ z : Int, 0 ≤ z → z < 2 ^ 256 → toArbitraryUnsigned (fromArbitraryPrecision z) = z) ∧
  (∀ z : Int, -2 ^ 255 ≤ z → z < 2 ^ 255 → toArbitrarySigned (fromArbitraryPrecision z) = z)

/-- ToDecimalString (R757): at least one character, all of them decimal digits whose base-10 value is the number's, with no
leading zero unless the string is "0", and a "-" before them exactly when a signed value is negative. That Zero's string is
"0" is the spec's general knowledge (log 11, PRESUMED). -/
def Obligations.DecimalStringsReadBack : Prop :=
  toDecimalUnsigned zeroValue = "0" ∧ toDecimalSigned zeroValue = "0" ∧
  ∀ v : Value,
    toDecimalUnsigned v ≠ "" ∧
    (∀ ch ∈ (toDecimalUnsigned v).toList, 48 ≤ ch.toNat ∧ ch.toNat ≤ 57) ∧
    (toDecimalUnsigned v).toList.foldl (fun n ch => 10 * n + (ch.toNat - 48)) 0 = uval v ∧
    ((toDecimalUnsigned v).toList.head? = some '0' → toDecimalUnsigned v = "0") ∧
    (sval v < 0 → toDecimalSigned v = "-" ++ toDecimalUnsigned (magnitude v)) ∧
    (0 ≤ sval v → toDecimalSigned v = toDecimalUnsigned v)

/-! ### Reset and the model's own fields -/

/-- The model's choice, no rule of the spec (log 15, DESIGN CHOICE): the reset input leaves the coming events, the read log
and the free-value counter, which are the model's and not CORE's, as they are. -/
def Obligations.ResetInputKeepsTheHostSide : Prop :=
  ∀ (s : State) (es : List Event), s.Inv → s.events = .reset :: es →
    ∃ t, step s = .next t ∧ t.events = es ∧ t.readLog = s.readLog ∧ t.freeCount = s.freeCount
end

