-- ==== Sys2Proof/Laws/Operands.lean ====
section
/-! SUPPORT. What the readings of a pattern are, once each: limbs, uval, sval, enc, magnitude, sign. -/

namespace Sys2Proof.Machine

/-! ### Limbs -/

theorem limb_toNat {n : Nat} (v : BitVec n) (j : Nat) : (limb v j).toNat = v.toNat / 2 ^ (64 * j) % 2 ^ 64 := by
  simp [limb, Nat.shiftRight_eq_div_pow]

theorem limbsVal_toLimbs (v : Value) : limbsVal (toLimbs v) = v.toNat := by
  have h := v.isLt
  simp only [toLimbs, limbsVal, limb_toNat]
  omega

@[simp] theorem ofLimbs_toLimbs (v : Value) : ofLimbs (toLimbs v) = v := by
  simp [ofLimbs, limbsVal_toLimbs]

theorem toLimbs_length (v : Value) : (toLimbs v).length = 4 := rfl

theorem limbsVal_lt (ws : List Word) : limbsVal ws < 2 ^ (64 * ws.length) := by
  induction ws with
  | nil => simp [limbsVal]
  | cons w ws ih =>
    have hw := w.isLt
    simp only [limbsVal, List.length_cons]
    have h : (2 : Nat) ^ (64 * (ws.length + 1)) = 2 ^ 64 * 2 ^ (64 * ws.length) := by rw [← pow_add]; congr 1; omega
    rw [h]
    nlinarith

theorem toNat_ofLimbs {n : Nat} (ws : List Word) (h : 64 * ws.length = n) : (ofLimbs ws : BitVec n).toNat = limbsVal ws := by
  subst h
  simp only [ofLimbs, BitVec.toNat_ofNat]
  exact Nat.mod_eq_of_lt (limbsVal_lt ws)

theorem ofLimbs_toNat (a b c d : Word) : uval (ofLimbs [a, b, c, d]) = limbsVal [a, b, c, d] :=
  toNat_ofLimbs [a, b, c, d] rfl

theorem toLimbs_ofLimbs (a b c d : Word) : toLimbs (ofLimbs [a, b, c, d]) = [a, b, c, d] := by
  have h := ofLimbs_toNat a b c d
  have ha := a.isLt; have hb := b.isLt; have hc := c.isLt; have hd := d.isLt
  simp only [uval, limbsVal] at h
  simp only [toLimbs, List.cons.injEq, and_true]
  refine ⟨?_, ?_, ?_, ?_⟩ <;> (apply BitVec.eq_of_toNat_eq; rw [limb_toNat, h]; omega)

/-! ### uval, sval, enc -/

theorem uval_lt (v : Value) : uval v < 2 ^ 256 := v.isLt

theorem uval_enc (z : Int) : (uval (enc z) : Int) = z % 2 ^ 256 := by
  simp only [uval, enc, BitVec.toNat_ofInt]
  norm_num
  exact Int.emod_nonneg _ (by norm_num)

theorem enc_uval (v : Value) : enc (uval v : Int) = v := by
  simp [enc, uval]

theorem value_eq_of_uval {u v : Value} (h : uval u = uval v) : u = v := BitVec.eq_of_toNat_eq h

theorem enc_eq_iff (y z : Int) : enc y = enc z ↔ y % 2 ^ 256 = z % 2 ^ 256 := by
  rw [← uval_enc, ← uval_enc]
  exact ⟨fun h => by rw [h], fun h => value_eq_of_uval (by exact_mod_cast h)⟩

theorem isNeg_iff (v : Value) : isNeg v = true ↔ 2 ^ 255 ≤ uval v := by
  have h := v.isLt
  simp only [isNeg, uval, BitVec.getLsbD, Nat.testBit_eq_decide_div_mod_eq, decide_eq_true_eq]
  omega

theorem sval_eq (v : Value) : sval v = if isNeg v then (uval v : Int) - 2 ^ 256 else (uval v : Int) := rfl

theorem sval_toInt (v : Value) : sval v = v.toInt := by
  have h := isNeg_iff v
  rw [sval_eq, BitVec.toInt_eq_toNat_cond]
  simp only [uval] at *
  split <;> split <;> simp_all <;> omega

theorem enc_sval (v : Value) : enc (sval v) = v := by
  rw [sval_toInt, enc, BitVec.ofInt_toInt]

theorem sval_range (v : Value) : -2 ^ 255 ≤ sval v ∧ sval v < 2 ^ 255 := by
  have h := isNeg_iff v
  have hv := uval_lt v
  rw [sval_eq]
  split
  · rename_i hn
    have := h.mp hn
    omega
  · rename_i hn
    have := mt h.mpr hn
    omega

theorem sval_neg_iff (v : Value) : sval v < 0 ↔ isNeg v = true := by
  have hv := uval_lt v
  rw [sval_eq]
  split <;> simp_all

theorem sval_eq_zero_iff (v : Value) : sval v = 0 ↔ v = 0 := by
  constructor
  · intro h; rw [← enc_sval v, h]; decide
  · rintro rfl; decide

theorem uval_eq_zero_iff (v : Value) : uval v = 0 ↔ v = 0 :=
  ⟨fun h => value_eq_of_uval (by simpa [uval] using h), by rintro rfl; rfl⟩

theorem sval_emod (v : Value) : sval v % 2 ^ 256 = uval v := by
  rw [← uval_enc, enc_sval]

/-! ### Magnitude and sign (R503, R556) -/

theorem uval_magnitude (v : Value) : uval (magnitude v) = (sval v).natAbs := by
  have h := isNeg_iff v
  have hv := uval_lt v
  rw [sval_eq, magnitude]
  split
  · rename_i hn
    have := h.mp hn
    simp only [uval, BitVec.ofNat_eq_ofNat, BitVec.toNat_add, BitVec.toNat_not, BitVec.toNat_ofNat] at *
    norm_num at *
    omega
  · simp

theorem magnitude_eq_zero_iff (v : Value) : magnitude v = 0 ↔ v = 0 := by
  rw [← uval_eq_zero_iff, uval_magnitude, Int.natAbs_eq_zero, sval_eq_zero_iff]

theorem withSign_eq (neg : Bool) (mag : Value) :
    withSign neg mag = enc (if neg then -(uval mag : Int) else uval mag) := by
  cases neg
  · simp [withSign, enc_uval]
  · simp only [withSign, if_true]
    have h : ~~~mag + 1 = -mag := (BitVec.neg_eq_not_add mag).symm
    rw [h, enc, BitVec.ofInt_neg]
    simp [uval]

end Sys2Proof.Machine
end

