-- ==== Sys2Proof/Laws/Datapath.lean ====
section
/-! SUPPORT. What each datapath computes, once: adder, subtractor, multiplier, reduction, exponentiation, comparator. -/

namespace Sys2Proof.Machine

/-! ### Adder (R400) -/

theorem addLimbs_val (xs ys : List Word) (c : Bool) (h : xs.length = ys.length) :
    limbsVal (addLimbs xs ys c).1 + 2 ^ (64 * xs.length) * (addLimbs xs ys c).2.toNat
      = limbsVal xs + limbsVal ys + c.toNat := by
  induction xs generalizing ys c with
  | nil =>
    obtain rfl : ys = [] := List.length_eq_zero_iff.mp h.symm
    simp [addLimbs, limbsVal]
  | cons x xs ih =>
    obtain _ | ⟨y, ys⟩ := ys
    · simp at h
    · simp only [addLimbs, limbsVal, List.length_cons]
      set t : BitVec 65 := x.setWidth 65 + y.setWidth 65 + (BitVec.ofBool c).setWidth 65 with ht
      have hx := x.isLt
      have hy := y.isLt
      have htv : t.toNat = x.toNat + y.toNat + c.toNat := by
        rw [ht]
        cases c <;> simp <;> omega
      have ht2 : (t.setWidth 64).toNat + 2 ^ 64 * (t.getLsbD 64).toNat = t.toNat := by
        have := t.isLt
        have hb : (t.getLsbD 64).toNat = t.toNat / 2 ^ 64 % 2 := by
          simp only [BitVec.getLsbD, Nat.testBit_eq_decide_div_mod_eq]
          rcases Nat.mod_two_eq_zero_or_one (t.toNat / 2 ^ 64) with h0 | h0 <;> simp only [h0] <;> rfl
        rw [hb, BitVec.toNat_setWidth]
        omega
      have h' := ih ys (t.getLsbD 64) (by simpa using h)
      have hp : (2 : Nat) ^ (64 * (xs.length + 1)) = 2 ^ 64 * 2 ^ (64 * xs.length) := by
        rw [← pow_add]; congr 1; omega
      rw [hp]
      nlinarith

theorem addLimbs_length (xs ys : List Word) (c : Bool) (h : xs.length = ys.length) :
    (addLimbs xs ys c).1.length = xs.length := by
  induction xs generalizing ys c with
  | nil => obtain rfl : ys = [] := List.length_eq_zero_iff.mp h.symm; rfl
  | cons x xs ih =>
    obtain _ | ⟨y, ys⟩ := ys
    · simp at h
    · simpa [addLimbs] using ih ys _ (by simpa using h)

theorem add_val (a b : Value) :
    uval (add256 a b).1 + 2 ^ 256 * (add256 a b).2.toNat = uval a + uval b := by
  have h := addLimbs_val (toLimbs a) (toLimbs b) false (by rw [toLimbs_length, toLimbs_length])
  rw [limbsVal_toLimbs, limbsVal_toLimbs] at h
  have hu : uval (add256 a b).1 = limbsVal (addLimbs (toLimbs a) (toLimbs b) false).1 := by
    simp only [uval, add256]
    rw [toNat_ofLimbs _ (by rw [addLimbs_length _ _ _ (by simp only [toLimbs_length]), toLimbs_length])]
  rw [hu]
  simpa [toLimbs_length, uval, add256] using h

/-- The sum wraps (R400). -/
theorem add256_sum (a b : Value) : (add256 a b).1 = a + b := by
  have h := add_val a b
  have h1 := uval_lt (add256 a b).1
  apply value_eq_of_uval
  simp only [uval, BitVec.toNat_add] at *
  cases hc : (add256 a b).2 <;> simp [hc] at h <;> omega

/-- The carry out of limb 3 (R400). -/
theorem add256_carry (a b : Value) : (add256 a b).2 = decide (2 ^ 256 ≤ uval a + uval b) := by
  have h := add_val a b
  have h1 := uval_lt (add256 a b).1
  cases hc : (add256 a b).2 <;> simp [hc] at h ⊢ <;> omega

/-! ### Subtractor (R400) -/

theorem subLimbs_val (xs ys : List Word) (bw : Bool) (h : xs.length = ys.length) :
    (limbsVal (subLimbs xs ys bw).1 : Int) - 2 ^ (64 * xs.length) * (subLimbs xs ys bw).2.toNat
      = limbsVal xs - limbsVal ys - bw.toNat := by
  induction xs generalizing ys bw with
  | nil =>
    obtain rfl : ys = [] := List.length_eq_zero_iff.mp h.symm
    simp [subLimbs, limbsVal]
  | cons x xs ih =>
    obtain _ | ⟨y, ys⟩ := ys
    · simp at h
    · simp only [subLimbs, limbsVal, List.length_cons]
      set t : Int := (x.toNat : Int) - (y.toNat : Int) - (bw.toNat : Int) with ht
      have hx := x.isLt
      have hy := y.isLt
      have hb : bw.toNat ≤ 1 := by cases bw <;> simp
      set d : Word := if t < 0 then BitVec.ofInt 64 (t + 2 ^ 64) else BitVec.ofInt 64 t with hdt
      have hd : (d.toNat : Int) = t + 2 ^ 64 * (decide (t < 0)).toNat := by
        rw [hdt]
        by_cases ht0 : t < 0 <;> simp [ht0, BitVec.toNat_ofInt] <;> omega
      have h' := ih ys (decide (t < 0)) (by simpa using h)
      have hp : (2 : Int) ^ (64 * (xs.length + 1)) = 2 ^ 64 * 2 ^ (64 * xs.length) := by
        rw [← pow_add]; congr 1; omega
      rw [hp]
      push_cast
      rw [hd]
      nlinarith

theorem subLimbs_length (xs ys : List Word) (bw : Bool) (h : xs.length = ys.length) :
    (subLimbs xs ys bw).1.length = xs.length := by
  induction xs generalizing ys bw with
  | nil => obtain rfl : ys = [] := List.length_eq_zero_iff.mp h.symm; rfl
  | cons x xs ih =>
    obtain _ | ⟨y, ys⟩ := ys
    · simp at h
    · simpa [subLimbs] using ih ys _ (by simpa using h)

theorem sub_val (a b : Value) :
    (uval (sub256 a b).1 : Int) - 2 ^ 256 * (sub256 a b).2.toNat = uval a - uval b := by
  have h := subLimbs_val (toLimbs a) (toLimbs b) false (by rw [toLimbs_length, toLimbs_length])
  rw [limbsVal_toLimbs, limbsVal_toLimbs] at h
  have hu : uval (sub256 a b).1 = limbsVal (subLimbs (toLimbs a) (toLimbs b) false).1 := by
    simp only [uval, sub256]
    rw [toNat_ofLimbs _ (by rw [subLimbs_length _ _ _ (by simp only [toLimbs_length]), toLimbs_length])]
  rw [hu]
  simpa [toLimbs_length, uval, sub256] using h

/-- The difference wraps (R400). -/
theorem sub256_diff (a b : Value) : (sub256 a b).1 = a - b := by
  have h := sub_val a b
  have h1 := uval_lt (sub256 a b).1
  have h2 := uval_lt a
  have h3 := uval_lt b
  apply value_eq_of_uval
  simp only [uval, BitVec.toNat_sub] at *
  cases hc : (sub256 a b).2 <;> simp [hc] at h <;> omega

/-- The borrow out of limb 3 (R400). -/
theorem sub256_borrow (a b : Value) : (sub256 a b).2 = decide (uval a < uval b) := by
  have h := sub_val a b
  have h1 := uval_lt (sub256 a b).1
  cases hc : (sub256 a b).2 <;> simp [hc] at h ⊢ <;> omega

/-! ### Wide multiplier (R450) -/

theorem mulRow_length (x : Word) (ys ps : List Word) (c : Word) (h : ys.length = ps.length) :
    (mulRow x ys ps c).length = ys.length + 1 := by
  induction ys generalizing ps c with
  | nil => obtain rfl : ps = [] := List.length_eq_zero_iff.mp h.symm; rfl
  | cons y ys ih =>
    obtain _ | ⟨p, ps⟩ := ps
    · simp at h
    · simp [mulRow, ih ps _ (by simpa using h)]

theorem mulRow_val (x : Word) (ys ps : List Word) (c : Word) (h : ys.length = ps.length) :
    limbsVal (mulRow x ys ps c) = x.toNat * limbsVal ys + limbsVal ps + c.toNat := by
  induction ys generalizing ps c with
  | nil => obtain rfl : ps = [] := List.length_eq_zero_iff.mp h.symm; simp [mulRow, limbsVal]
  | cons y ys ih =>
    obtain _ | ⟨p, ps⟩ := ps
    · simp at h
    · simp only [mulRow, limbsVal]
      set t : BitVec 128 := x.setWidth 128 * y.setWidth 128 + p.setWidth 128 + c.setWidth 128 with ht
      have hx := x.isLt
      have hy := y.isLt
      have hp := p.isLt
      have hc := c.isLt
      have hxy : x.toNat * y.toNat ≤ (2 ^ 64 - 1) * (2 ^ 64 - 1) := Nat.mul_le_mul (by omega) (by omega)
      have htv : t.toNat = x.toNat * y.toNat + p.toNat + c.toNat := by
        rw [ht]
        simp only [BitVec.toNat_add, BitVec.toNat_mul, BitVec.toNat_setWidth]
        rw [Nat.mod_eq_of_lt (show x.toNat < 2 ^ 128 by omega), Nat.mod_eq_of_lt (show y.toNat < 2 ^ 128 by omega)]
        norm_num at *
        omega
      have hsplit : (t.extractLsb' 0 64).toNat + 2 ^ 64 * (t.extractLsb' 64 64).toNat = t.toNat := by
        have := t.isLt
        simp only [BitVec.extractLsb'_toNat, Nat.shiftRight_eq_div_pow]
        omega
      rw [ih ps _ (by simpa using h)]
      nlinarith

theorem mulRows_length (xs ys ps : List Word) (h : ys.length = ps.length) :
    (mulRows xs ys ps).length = xs.length + ps.length := by
  induction xs generalizing ps with
  | nil => simp [mulRows]
  | cons x xs ih =>
    have hr := mulRow_length x ys ps 0 h
    simp only [mulRows]
    obtain hm | ⟨p, rest, hm⟩ : mulRow x ys ps 0 = [] ∨ ∃ p rest, mulRow x ys ps 0 = p :: rest := by
      cases mulRow x ys ps 0 <;> simp
    · rw [hm] at hr; simp at hr
    · rw [hm] at hr ⊢
      simp only [List.length_cons, add_left_inj] at hr ⊢
      rw [ih rest hr.symm]
      omega

theorem mulRows_val (xs ys ps : List Word) (h : ys.length = ps.length) :
    limbsVal (mulRows xs ys ps) = limbsVal xs * limbsVal ys + limbsVal ps := by
  induction xs generalizing ps with
  | nil => simp [mulRows, limbsVal]
  | cons x xs ih =>
    have hr := mulRow_length x ys ps 0 h
    have hv := mulRow_val x ys ps 0 h
    simp only [mulRows]
    obtain hm | ⟨p, rest, hm⟩ : mulRow x ys ps 0 = [] ∨ ∃ p rest, mulRow x ys ps 0 = p :: rest := by
      cases mulRow x ys ps 0 <;> simp
    · rw [hm] at hr; simp at hr
    · rw [hm] at hr hv ⊢
      simp only [List.length_cons, add_left_inj, limbsVal] at hr hv ⊢
      have h0 : (0 : Word).toNat = 0 := rfl
      rw [ih rest hr.symm]
      rw [h0] at hv
      nlinarith

/-- The wide product is exact (R450). -/
theorem mulWide_toNat (a b : Value) : (mulWide a b).toNat = uval a * uval b := by
  have hv := mulRows_val (toLimbs a) (toLimbs b) [0, 0, 0, 0] rfl
  have hl : 64 * (mulRows (toLimbs a) (toLimbs b) [0, 0, 0, 0]).length = 512 := by
    rw [mulRows_length (toLimbs a) (toLimbs b) [0, 0, 0, 0] rfl]; simp [toLimbs]
  have hz : limbsVal [0, 0, 0, 0] = 0 := by decide
  rw [limbsVal_toLimbs, limbsVal_toLimbs, hz] at hv
  rw [mulWide, toNat_ofLimbs _ hl, hv]
  rfl

theorem uval_lowHalf (p : Wide) : uval (lowHalf p) = p.toNat % 2 ^ 256 := by
  simp [uval, lowHalf]

theorem uval_highHalf (p : Wide) : uval (highHalf p) = p.toNat / 2 ^ 256 := by
  have := p.isLt
  simp only [uval, highHalf, BitVec.extractLsb'_toNat, Nat.shiftRight_eq_div_pow]
  omega

/-- The product kept by MUL (R451). -/
theorem lowHalf_mulWide (a b : Value) : lowHalf (mulWide a b) = a * b := by
  apply value_eq_of_uval
  rw [uval_lowHalf, mulWide_toNat]
  simp [uval, BitVec.toNat_mul]

/-! ### Divider and reduction (R500, R550, R556) -/

theorem divModN_quotient {n : Nat} (A : BitVec n) (B : Value) : (divModN A B).1.toNat = A.toNat / uval B := by
  simp only [divModN, BitVec.toNat_ofNat]
  exact Nat.mod_eq_of_lt (lt_of_le_of_lt (Nat.div_le_self _ _) A.isLt)

theorem divModN_remainder {n : Nat} (A : BitVec n) (B : Value) (h : B ≠ 0) :
    uval (divModN A B).2 = A.toNat % uval B := by
  have hB : 0 < uval B := Nat.pos_of_ne_zero fun h0 => h ((uval_eq_zero_iff B).mp h0)
  have hr := Nat.mod_lt A.toNat hB
  have hu := uval_lt B
  rw [uval, divModN, BitVec.toNat_ofNat]
  exact Nat.mod_eq_of_lt (by omega)

theorem uval_reduce (X : Wide) (m : Value) (h : m ≠ 0) : uval (reduce X m) = X.toNat % uval m :=
  divModN_remainder X m h

theorem toNat_ofNat_lt {k z : Nat} (h : z < 2 ^ k) : (BitVec.ofNat k z).toNat = z := by
  rw [BitVec.toNat_ofNat, Nat.mod_eq_of_lt h]

theorem enc512_toNat (z : Nat) (h : z < 2 ^ 512) : (enc512 z).toNat = z := toNat_ofNat_lt h

theorem enc512_one : (enc512 1).toNat = 1 := BitVec.toNat_one (by decide)

theorem sreduce_eq (X : Int) (m : Value) (h : m ≠ 0) (hX : X.natAbs < 2 ^ 512) :
    sreduce X m = enc (tmod X (sval m).natAbs) := by
  have hm : magnitude m ≠ 0 := fun h0 => h ((magnitude_eq_zero_iff m).mp h0)
  have hn := enc512_toNat X.natAbs hX
  rw [sreduce, withSign_eq, uval_reduce _ _ hm, hn, uval_magnitude, tmod]
  congr 1
  rcases lt_trichotomy X 0 with h0 | rfl | h0
  · simp [h0, Int.sign_eq_neg_one_of_neg h0]
  · simp
  · simp [Int.sign_eq_one_of_pos h0, not_lt.mpr h0.le]

/-! ### Exponentiation (R600) -/

/-- The square-and-multiply loop, modulo M, when its step multiplies modulo M. -/
theorem powLoop_modEq (M : Nat) (step : Value → Value → Value) (a e : Value)
    (hs : ∀ x y, uval (step x y) ≡ uval x * uval y [MOD M]) (i : Nat) (r : Value) :
    uval (powLoop step a e i r) ≡ uval r ^ 2 ^ i * uval a ^ (uval e % 2 ^ i) [MOD M] := by
  induction i generalizing r with
  | zero => simp [powLoop, Nat.mod_one, Nat.ModEq.refl]
  | succ i ih =>
    have hbit : uval e % 2 ^ (i + 1) = uval e % 2 ^ i + 2 ^ i * (uval e / 2 ^ i % 2) := by
      rw [pow_succ, Nat.mod_mul]
    have hsq : uval (step r r) ≡ uval r ^ 2 [MOD M] := by rw [sq]; exact hs r r
    have hpow : uval r ^ 2 ^ (i + 1) = (uval r ^ 2) ^ 2 ^ i := by rw [← pow_mul, pow_succ, mul_comm]
    have hb : e.getLsbD i = decide (uval e / 2 ^ i % 2 = 1) := by
      rw [BitVec.getLsbD, Nat.testBit_eq_decide_div_mod_eq]; rfl
    simp only [powLoop]
    refine (ih _).trans ?_
    rw [hbit, hpow]
    rcases Nat.mod_two_eq_zero_or_one (uval e / 2 ^ i) with h0 | h0
    · rw [if_neg (by simp [hb, h0]), h0, mul_zero, add_zero]
      exact (hsq.pow _).mul_right _
    · rw [if_pos (by simp [hb, h0]), h0, mul_one, pow_add]
      refine ((((hs _ _).trans (hsq.mul_right _)).pow _).mul_right _).trans ?_
      rw [mul_pow]
      rw [show (uval r ^ 2) ^ 2 ^ i * uval a ^ 2 ^ i * uval a ^ (uval e % 2 ^ i)
        = (uval r ^ 2) ^ 2 ^ i * (uval a ^ (uval e % 2 ^ i) * uval a ^ 2 ^ i) by ring]

theorem powLoop_from_one (M : Nat) (step : Value → Value → Value) (a e : Value)
    (hs : ∀ x y, uval (step x y) ≡ uval x * uval y [MOD M]) (i : Nat) (r : Value) (hr : uval r ≡ 1 [MOD M]) :
    uval (powLoop step a e i r) ≡ uval a ^ (uval e % 2 ^ i) [MOD M] := by
  have h := (powLoop_modEq M step a e hs i r).trans ((hr.pow _).mul_right _)
  rwa [one_pow, one_mul] at h

/-- EXP's pipeline gives the power modulo 2^256 (R600). -/
theorem uval_powWrap (a e : Value) : uval (powWrap a e) = uval a ^ uval e % 2 ^ 256 := by
  have h := powLoop_from_one (2 ^ 256) (fun x y => lowHalf (mulWide x y)) a e
    (fun x y => by rw [uval_lowHalf, mulWide_toNat]; exact Nat.mod_modEq _ _) 256 1 (Nat.ModEq.refl 1)
  rw [Nat.mod_eq_of_lt (uval_lt e)] at h
  rw [← Nat.mod_eq_of_lt (uval_lt (powWrap a e))]
  exact h

/-- EXPMOD's pipeline gives the power modulo m (R600). -/
theorem uval_powMod (a e m : Value) (hm : m ≠ 0) : uval (powMod a e m) = uval a ^ uval e % uval m := by
  have hpos : 0 < uval m := Nat.pos_of_ne_zero fun h0 => hm ((uval_eq_zero_iff m).mp h0)
  have hstep : ∀ x y, uval (reduce (mulWide x y) m) ≡ uval x * uval y [MOD uval m] := fun x y => by
    rw [uval_reduce _ _ hm, mulWide_toNat]; exact Nat.mod_modEq _ _
  have h1 : uval (reduce (enc512 1) m) ≡ 1 [MOD uval m] := by
    rw [uval_reduce _ _ hm, enc512_one]; exact Nat.mod_modEq _ _
  have h2 := powLoop_from_one (uval m) (fun x y => reduce (mulWide x y) m) a e hstep 256 _ h1
  rw [Nat.mod_eq_of_lt (uval_lt e)] at h2
  have hlt : ∀ i r, uval r < uval m → uval (powLoop (fun x y => reduce (mulWide x y) m) a e i r) < uval m := by
    intro i
    induction i with
    | zero => intro r hr; exact hr
    | succ i ih =>
      intro r _
      simp only [powLoop]
      apply ih
      have hred : ∀ X, uval (reduce X m) < uval m := fun X => by rw [uval_reduce _ _ hm]; exact Nat.mod_lt _ hpos
      split <;> exact hred _
  have hl : uval (powMod a e m) < uval m :=
    hlt 256 _ (by rw [uval_reduce _ _ hm]; exact Nat.mod_lt _ hpos)
  rw [← Nat.mod_eq_of_lt hl]
  exact h2

/-! ### Comparator (R700) -/

theorem scan_nat (x y : Nat) (X Y m : Nat) (hX : X < m) (hY : Y < m) :
    compare (X + m * x) (Y + m * y) = (compare x y).then (compare X Y) := by
  rcases lt_trichotomy x y with h | rfl | h
  · have : X + m * x < Y + m * y := by nlinarith
    simp [Nat.compare_eq_lt.mpr h, Nat.compare_eq_lt.mpr this]
  · rcases lt_trichotomy X Y with h | rfl | h
    · simp [Nat.compare_eq_lt.mpr h, Nat.compare_eq_lt.mpr (show X + m * x < Y + m * x by omega)]
    · simp
    · simp [Nat.compare_eq_gt.mpr h, Nat.compare_eq_gt.mpr (show Y + m * x < X + m * x by omega)]
  · have : Y + m * y < X + m * x := by nlinarith
    simp [Nat.compare_eq_gt.mpr h, Nat.compare_eq_gt.mpr this]

/-- The scan, most significant limb first, orders by value (R700). -/
theorem scanLimbs_reverse (xs ys : List Word) (h : xs.length = ys.length) :
    scanLimbs xs.reverse ys.reverse = compare (limbsVal xs) (limbsVal ys) := by
  have happ : ∀ (ps qs : List Word) (x y : Word), ps.length = qs.length →
      scanLimbs (ps ++ [x]) (qs ++ [y]) = (scanLimbs ps qs).then (compare x.toNat y.toNat) := by
    intro ps
    induction ps with
    | nil =>
      intro qs x y hq
      obtain rfl : qs = [] := List.length_eq_zero_iff.mp hq.symm
      simp only [List.nil_append, scanLimbs, BitVec.lt_def, Ordering.eq_then]
      rcases lt_trichotomy x.toNat y.toNat with h0 | h0 | h0
      · rw [if_pos h0, Nat.compare_eq_lt.mpr h0]
      · rw [if_neg (by omega), if_neg (by omega), Nat.compare_eq_eq.mpr h0]
      · rw [if_neg (by omega), if_pos h0, Nat.compare_eq_gt.mpr h0]
    | cons p ps ih =>
      intro qs x y hq
      obtain _ | ⟨q, qs⟩ := qs
      · simp at hq
      · simp only [List.cons_append, scanLimbs]
        rw [ih qs x y (by simpa using hq)]
        split
        · rfl
        · split <;> rfl
  induction xs generalizing ys with
  | nil => obtain rfl : ys = [] := List.length_eq_zero_iff.mp h.symm; rfl
  | cons x xs ih =>
    obtain _ | ⟨y, ys⟩ := ys
    · simp at h
    · simp only [List.reverse_cons, limbsVal]
      rw [happ _ _ _ _ (by simpa using h), ih ys (by simpa using h)]
      exact (scan_nat _ _ _ _ _ x.isLt y.isLt).symm

/-- CmpU orders by uval (R700). -/
theorem compareU_eq (a b : Value) : compareU a b = compare (uval a) (uval b) := by
  rw [compareU, scanLimbs_reverse _ _ (by rw [toLimbs_length, toLimbs_length]), limbsVal_toLimbs, limbsVal_toLimbs]
  rfl

theorem uval_flip (v : Value) : (uval (v ^^^ BitVec.twoPow 256 255) : Int) = sval v + 2 ^ 255 := by
  have hv : v = BitVec.cons (isNeg v) (v.setWidth 255) := (BitVec.cons_msb_setWidth v).symm
  have ht : BitVec.twoPow 256 255 = BitVec.cons true 0#255 := by decide +kernel
  have hx : v ^^^ BitVec.twoPow 256 255 = BitVec.cons (!isNeg v) (v.setWidth 255) := by
    conv_lhs => rw [hv, ht]
    rw [BitVec.cons_xor_cons]
    simp
  have h1 : uval (v ^^^ BitVec.twoPow 256 255) = (!isNeg v).toNat * 2 ^ 255 + uval v % 2 ^ 255 := by
    rw [hx, uval, BitVec.toNat_cons', Nat.shiftLeft_eq, BitVec.toNat_setWidth]
    rfl
  have hu := uval_lt v
  have hn := isNeg_iff v
  rw [h1, sval_eq]
  cases h : isNeg v
  · have := mt hn.mpr (by simp [h])
    simp
    omega
  · have := hn.mp h
    simp
    omega

/-- CmpS orders by sval (R700). -/
theorem compareS_eq (a b : Value) : compareS a b = compare (sval a) (sval b) := by
  have ha := uval_flip a
  have hb := uval_flip b
  rw [compareS, compareU_eq]
  rcases lt_trichotomy (sval a) (sval b) with h | h | h
  · rw [Nat.compare_eq_lt.mpr (by omega)]; exact (compare_lt_iff_lt.mpr h).symm
  · rw [Nat.compare_eq_eq.mpr (by omega)]; exact (compare_eq_iff_eq.mpr h).symm
  · rw [Nat.compare_eq_gt.mpr (by omega)]; exact (compare_gt_iff_gt.mpr h).symm

end Sys2Proof.Machine
end

