-- ==== Sys2Proof/Laws/Decode.lean ====
section
/-! SUPPORT. Small facts about command words: which row a word fits, what its fields are (R301 to R304). -/

namespace Sys2Proof

/-! ### Rows -/

/-- The mask of a format keeps the low byte (op, s and bit 7), so the low byte of a word that fits a row is the row's. -/
theorem Row.fits_low (r : Row) (w : BitVec 32) (h : r.fits w = true) : w.extractLsb' 0 8 = r.pattern.extractLsb' 0 8 := by
  simp only [Row.fits, decide_eq_true_eq] at h
  rw [← h]
  apply BitVec.eq_of_getLsbD_eq
  intro i hi
  cases hf : r.format <;> simp only [Format.mask, BitVec.getLsbD_extractLsb', BitVec.getLsbD_and, hi, decide_true,
    Bool.true_and, Nat.zero_add] <;> interval_cases i <;> simp

/-- The low bytes of the rows differ: the rows differ in op or in s (R310). -/
theorem rows_low_nodup : (opcodeTable.map fun r => r.pattern.extractLsb' 0 8).Nodup := by decide +kernel

/-- Two rows that fit one word are one row. -/
theorem row_unique (w : BitVec 32) (j k : Nat) (hj : j < opcodeTable.length) (hk : k < opcodeTable.length)
    (h1 : opcodeTable[j].fits w = true) (h2 : opcodeTable[k].fits w = true) : j = k := by
  have h := (Row.fits_low _ _ h1).symm.trans (Row.fits_low _ _ h2)
  exact (List.Nodup.getElem_inj_iff rows_low_nodup (hi := by simpa using hj) (hj := by simpa using hk)).mp (by simpa using h)

/-- The decoder finds the row a word fits. -/
theorem find_row (w : BitVec 32) (k : Nat) (hk : k < opcodeTable.length) (h : opcodeTable[k].fits w = true) :
    opcodeTable.find? (·.fits w) = some opcodeTable[k] := by
  rw [List.find?_eq_some_iff_getElem]
  refine ⟨h, k, hk, rfl, fun j hj => ?_⟩
  by_contra hf
  have := row_unique w j k (by omega) hk (by simpa using hf) h
  omega

/-! ### Encoded words under their format's mask -/

theorem encode3R_mask (low : BitVec 8) (rd ra rb : RegId) :
    encode3R low rd ra rb &&& Format.threeReg.mask = low.setWidth 32 := by
  apply BitVec.eq_of_getLsbD_eq
  intro i hi
  simp only [encode3R, Format.mask, BitVec.getLsbD_and, BitVec.getLsbD_append, BitVec.getLsbD_setWidth]
  interval_cases i <;> simp

theorem encode4R_mask (low : BitVec 8) (rd ra rb rm : RegId) :
    encode4R low rd ra rb rm &&& Format.fourReg.mask = low.setWidth 32 := by
  apply BitVec.eq_of_getLsbD_eq
  intro i hi
  simp only [encode4R, Format.mask, BitVec.getLsbD_and, BitVec.getLsbD_append, BitVec.getLsbD_setWidth]
  interval_cases i <;> simp

theorem encodeC_mask (low : BitVec 8) (ra rb : RegId) : encodeC low ra rb &&& Format.compare.mask = low.setWidth 32 := by
  apply BitVec.eq_of_getLsbD_eq
  intro i hi
  simp only [encodeC, Format.mask, BitVec.getLsbD_and, BitVec.getLsbD_append, BitVec.getLsbD_setWidth]
  interval_cases i <;> simp

theorem encodeI_mask (low : BitVec 8) (rd : RegId) (imm : BitVec 16) :
    encodeI low rd imm &&& Format.immediate.mask = low.setWidth 32 := by
  apply BitVec.eq_of_getLsbD_eq
  intro i hi
  simp only [encodeI, Format.mask, BitVec.getLsbD_and, BitVec.getLsbD_append, BitVec.getLsbD_setWidth]
  interval_cases i <;> simp

/-! ### Fields of encoded words -/

theorem regField_eq {w : BitVec 32} {lo : Nat} {r : RegId} (h : w.extractLsb' lo 4 = regBits r) : regField w lo = r := by
  rw [regField, h]; rfl

theorem encode3R_fields (low : BitVec 8) (rd ra rb : RegId) :
    regField (encode3R low rd ra rb) 8 = rd ∧ regField (encode3R low rd ra rb) 12 = ra ∧
    regField (encode3R low rd ra rb) 16 = rb := by
  refine ⟨?_, ?_, ?_⟩ <;>
  · apply regField_eq
    apply BitVec.eq_of_getLsbD_eq
    intro i hi
    simp only [encode3R, BitVec.getLsbD_append, BitVec.getLsbD_extractLsb']
    interval_cases i <;> simp

theorem encode4R_fields (low : BitVec 8) (rd ra rb rm : RegId) :
    regField (encode4R low rd ra rb rm) 8 = rd ∧ regField (encode4R low rd ra rb rm) 12 = ra ∧
    regField (encode4R low rd ra rb rm) 16 = rb ∧ regField (encode4R low rd ra rb rm) 20 = rm := by
  refine ⟨?_, ?_, ?_, ?_⟩ <;>
  · apply regField_eq
    apply BitVec.eq_of_getLsbD_eq
    intro i hi
    simp only [encode4R, BitVec.getLsbD_append, BitVec.getLsbD_extractLsb']
    interval_cases i <;> simp

theorem encodeC_fields (low : BitVec 8) (ra rb : RegId) :
    regField (encodeC low ra rb) 12 = ra ∧ regField (encodeC low ra rb) 16 = rb := by
  refine ⟨?_, ?_⟩ <;>
  · apply regField_eq
    apply BitVec.eq_of_getLsbD_eq
    intro i hi
    simp only [encodeC, BitVec.getLsbD_append, BitVec.getLsbD_extractLsb']
    interval_cases i <;> simp

theorem encodeI_fields (low : BitVec 8) (rd : RegId) (imm : BitVec 16) :
    regField (encodeI low rd imm) 8 = rd ∧ (encodeI low rd imm).extractLsb' 16 16 = imm := by
  constructor
  · apply regField_eq
    apply BitVec.eq_of_getLsbD_eq
    intro i hi
    simp only [encodeI, BitVec.getLsbD_append, BitVec.getLsbD_extractLsb']
    interval_cases i <;> simp
  · apply BitVec.eq_of_getLsbD_eq
    intro i hi
    simp only [encodeI, BitVec.getLsbD_append, BitVec.getLsbD_extractLsb']
    interval_cases i <;> simp

/-! ### The two halves of the CMD write -/

theorem upper_setWidth (w : BitVec 32) : (w.setWidth 64).extractLsb' 32 32 = 0 := by
  apply BitVec.eq_of_toNat_eq
  have h := w.isLt
  simp only [BitVec.extractLsb'_toNat, BitVec.toNat_setWidth, Nat.shiftRight_eq_div_pow]
  rw [Nat.mod_eq_of_lt (show w.toNat < 2 ^ 64 by omega), Nat.div_eq_of_lt h]
  rfl

theorem lower_setWidth (w : BitVec 32) : (w.setWidth 64).extractLsb' 0 32 = w := by
  apply BitVec.eq_of_toNat_eq
  have := w.isLt
  simp
  omega

/-- A word in range whose low half fits row k decodes to that row's command, if it is well formed. -/
theorem decode_of_row (w : BitVec 32) (k : Nat) (hk : k < opcodeTable.length)
    (hf : w &&& opcodeTable[k].format.mask = opcodeTable[k].pattern)
    (hw : (opcodeTable[k].build (fieldsOf w)).wf = true) :
    decode (w.setWidth 64) = .ok (opcodeTable[k].build (fieldsOf w)) := by
  have hfit : opcodeTable[k].fits w = true := by simp [Row.fits, hf]
  rw [decode, if_neg (by simp [upper_setWidth])]
  simp only [lower_setWidth, find_row _ k hk hfit, hw, if_true]

/-! ### The word formulas of the command rules are the format diagrams -/

theorem testBit_of_width {n k : Nat} (w : Nat) (h : n < 2 ^ w) (hk : w ≤ k) : n.testBit k = false :=
  Nat.testBit_lt_two_pow (lt_of_lt_of_le h (Nat.pow_le_pow_right (by norm_num) hk))

theorem ruleWord_eq_encode4R (low : BitVec 8) (rd ra rb rm : RegId) :
    ruleWord (low.setWidth 64) rd ra rb rm = (encode4R low rd ra rb rm).setWidth 64 := by
  apply BitVec.eq_of_getLsbD_eq
  intro i hi
  have hr : ∀ (r : RegId) (k : Nat), 4 ≤ k → r.val.testBit k = false := fun r _ hk => testBit_of_width 4 r.isLt hk
  have hl : ∀ k : Nat, 8 ≤ k → low.toNat.testBit k = false := fun _ hk => testBit_of_width 8 low.isLt hk
  simp only [ruleWord, encode4R, regBits, BitVec.getLsbD_or, BitVec.getLsbD_shiftLeft, BitVec.getLsbD_setWidth,
    BitVec.getLsbD_append, BitVec.getLsbD_ofNat]
  interval_cases i <;> simp [hr, hl, BitVec.getLsbD]

theorem ruleWordI_eq_encodeI (low : BitVec 8) (rd : RegId) (imm : BitVec 16) :
    ruleWordI (low.setWidth 64) rd imm = (encodeI low rd imm).setWidth 64 := by
  apply BitVec.eq_of_getLsbD_eq
  intro i hi
  have hr : ∀ (r : RegId) (k : Nat), 4 ≤ k → r.val.testBit k = false := fun r _ hk => testBit_of_width 4 r.isLt hk
  have hl : ∀ k : Nat, 8 ≤ k → low.toNat.testBit k = false := fun _ hk => testBit_of_width 8 low.isLt hk
  have hm : ∀ k : Nat, 16 ≤ k → imm.toNat.testBit k = false := fun _ hk => testBit_of_width 16 imm.isLt hk
  simp only [ruleWordI, encodeI, regBits, BitVec.getLsbD_or, BitVec.getLsbD_shiftLeft, BitVec.getLsbD_setWidth,
    BitVec.getLsbD_append, BitVec.getLsbD_ofNat]
  interval_cases i <;> simp [hr, hl, hm, BitVec.getLsbD]

/-- Format 3R is format 4R with rm = 0. -/
theorem encode4R_zero (low : BitVec 8) (rd ra rb : RegId) : encode4R low rd ra rb 0 = encode3R low rd ra rb := by
  apply BitVec.eq_of_getLsbD_eq
  intro i hi
  simp only [encode4R, encode3R, BitVec.getLsbD_append]
  interval_cases i <;> simp [regBits]

/-- Format C is format 3R with rd = 0. -/
theorem encode3R_zero (low : BitVec 8) (ra rb : RegId) : encode3R low 0 ra rb = encodeC low ra rb := by
  apply BitVec.eq_of_getLsbD_eq
  intro i hi
  simp only [encodeC, encode3R, BitVec.getLsbD_append]
  interval_cases i <;> simp [regBits]

/-! ### A word with its format's fixed bits is its fields' encoding -/

theorem regBits_regField (w : BitVec 32) (lo k : Nat) : (regBits (regField w lo)).getLsbD k = (decide (k < 4) && w.getLsbD (lo + k)) := by
  have h : regBits (regField w lo) = w.extractLsb' lo 4 := rfl
  rw [h, BitVec.getLsbD_extractLsb']

theorem encode3R_of_fields (w : BitVec 32) (low : BitVec 8) (h : w &&& Format.threeReg.mask = low.setWidth 32) :
    encode3R low (regField w 8) (regField w 12) (regField w 16) = w := by
  apply BitVec.eq_of_getLsbD_eq
  intro i hi
  have hb := congrArg (·.getLsbD i) h
  simp only [BitVec.getLsbD_and, Format.mask, BitVec.getLsbD_setWidth] at hb
  simp only [encode3R, BitVec.getLsbD_append, regBits_regField]
  interval_cases i <;> simp at hb ⊢ <;> simp [hb]

theorem encode4R_of_fields (w : BitVec 32) (low : BitVec 8) (h : w &&& Format.fourReg.mask = low.setWidth 32) :
    encode4R low (regField w 8) (regField w 12) (regField w 16) (regField w 20) = w := by
  apply BitVec.eq_of_getLsbD_eq
  intro i hi
  have hb := congrArg (·.getLsbD i) h
  simp only [BitVec.getLsbD_and, Format.mask, BitVec.getLsbD_setWidth] at hb
  simp only [encode4R, BitVec.getLsbD_append, regBits_regField]
  interval_cases i <;> simp at hb ⊢ <;> simp [hb]

theorem encodeC_of_fields (w : BitVec 32) (low : BitVec 8) (h : w &&& Format.compare.mask = low.setWidth 32) :
    encodeC low (regField w 12) (regField w 16) = w := by
  apply BitVec.eq_of_getLsbD_eq
  intro i hi
  have hb := congrArg (·.getLsbD i) h
  simp only [BitVec.getLsbD_and, Format.mask, BitVec.getLsbD_setWidth] at hb
  simp only [encodeC, BitVec.getLsbD_append, regBits_regField]
  interval_cases i <;> simp at hb ⊢ <;> simp [hb]

theorem encodeI_of_fields (w : BitVec 32) (low : BitVec 8) (h : w &&& Format.immediate.mask = low.setWidth 32) :
    encodeI low (regField w 8) (w.extractLsb' 16 16) = w := by
  apply BitVec.eq_of_getLsbD_eq
  intro i hi
  have hb := congrArg (·.getLsbD i) h
  simp only [BitVec.getLsbD_and, Format.mask, BitVec.getLsbD_setWidth] at hb
  simp only [encodeI, BitVec.getLsbD_append, BitVec.getLsbD_extractLsb', regBits_regField]
  interval_cases i <;> simp at hb ⊢ <;> simp [hb]

end Sys2Proof
end

