-- ==== Sys2Proof/Laws/State.lean ====
section
/-! SUPPORT. One lemma per field per update of State, true by rfl. -/

namespace Sys2Proof.Machine

/-! ### setX -/

@[simp] theorem State.setX_regs (s : State) (i : RegId) (v : Value) : (s.setX i v).regs = s.regs.set i.val (writtenLimbs v) := rfl
@[simp] theorem State.setX_inflight (s : State) (i : RegId) (v : Value) : (s.setX i v).inflight = s.inflight := rfl
@[simp] theorem State.setX_c (s : State) (i : RegId) (v : Value) : (s.setX i v).c = s.c := rfl
@[simp] theorem State.setX_cmp (s : State) (i : RegId) (v : Value) : (s.setX i v).cmp = s.cmp := rfl
@[simp] theorem State.setX_err (s : State) (i : RegId) (v : Value) : (s.setX i v).err = s.err := rfl
@[simp] theorem State.setX_esticky (s : State) (i : RegId) (v : Value) : (s.setX i v).esticky = s.esticky := rfl
@[simp] theorem State.setX_ovr (s : State) (i : RegId) (v : Value) : (s.setX i v).ovr = s.ovr := rfl
@[simp] theorem State.setX_berr (s : State) (i : RegId) (v : Value) : (s.setX i v).berr = s.berr := rfl
@[simp] theorem State.setX_events (s : State) (i : RegId) (v : Value) : (s.setX i v).events = s.events := rfl
@[simp] theorem State.setX_readLog (s : State) (i : RegId) (v : Value) : (s.setX i v).readLog = s.readLog := rfl
@[simp] theorem State.setX_freeCount (s : State) (i : RegId) (v : Value) : (s.setX i v).freeCount = s.freeCount := rfl

/-! ### setLimb -/

@[simp] theorem State.setLimb_regs (s : State) (i : RegId) (j : LimbId) (v : Word) : (s.setLimb i j v).regs = s.regs.set i.val (s.regs[i.val].set j.val ⟨v, true⟩) := rfl
@[simp] theorem State.setLimb_inflight (s : State) (i : RegId) (j : LimbId) (v : Word) : (s.setLimb i j v).inflight = s.inflight := rfl
@[simp] theorem State.setLimb_c (s : State) (i : RegId) (j : LimbId) (v : Word) : (s.setLimb i j v).c = s.c := rfl
@[simp] theorem State.setLimb_cmp (s : State) (i : RegId) (j : LimbId) (v : Word) : (s.setLimb i j v).cmp = s.cmp := rfl
@[simp] theorem State.setLimb_err (s : State) (i : RegId) (j : LimbId) (v : Word) : (s.setLimb i j v).err = s.err := rfl
@[simp] theorem State.setLimb_esticky (s : State) (i : RegId) (j : LimbId) (v : Word) : (s.setLimb i j v).esticky = s.esticky := rfl
@[simp] theorem State.setLimb_ovr (s : State) (i : RegId) (j : LimbId) (v : Word) : (s.setLimb i j v).ovr = s.ovr := rfl
@[simp] theorem State.setLimb_berr (s : State) (i : RegId) (j : LimbId) (v : Word) : (s.setLimb i j v).berr = s.berr := rfl
@[simp] theorem State.setLimb_events (s : State) (i : RegId) (j : LimbId) (v : Word) : (s.setLimb i j v).events = s.events := rfl
@[simp] theorem State.setLimb_readLog (s : State) (i : RegId) (j : LimbId) (v : Word) : (s.setLimb i j v).readLog = s.readLog := rfl
@[simp] theorem State.setLimb_freeCount (s : State) (i : RegId) (j : LimbId) (v : Word) : (s.setLimb i j v).freeCount = s.freeCount := rfl

/-! ### setC -/

@[simp] theorem State.setC_regs (s : State) (b : Bool) : (s.setC b).regs = s.regs := rfl
@[simp] theorem State.setC_inflight (s : State) (b : Bool) : (s.setC b).inflight = s.inflight := rfl
@[simp] theorem State.setC_c (s : State) (b : Bool) : (s.setC b).c = b := rfl
@[simp] theorem State.setC_cmp (s : State) (b : Bool) : (s.setC b).cmp = s.cmp := rfl
@[simp] theorem State.setC_err (s : State) (b : Bool) : (s.setC b).err = s.err := rfl
@[simp] theorem State.setC_esticky (s : State) (b : Bool) : (s.setC b).esticky = s.esticky := rfl
@[simp] theorem State.setC_ovr (s : State) (b : Bool) : (s.setC b).ovr = s.ovr := rfl
@[simp] theorem State.setC_berr (s : State) (b : Bool) : (s.setC b).berr = s.berr := rfl
@[simp] theorem State.setC_events (s : State) (b : Bool) : (s.setC b).events = s.events := rfl
@[simp] theorem State.setC_readLog (s : State) (b : Bool) : (s.setC b).readLog = s.readLog := rfl
@[simp] theorem State.setC_freeCount (s : State) (b : Bool) : (s.setC b).freeCount = s.freeCount := rfl

/-! ### setCmp -/

@[simp] theorem State.setCmp_regs (s : State) (o : Ordering) : (s.setCmp o).regs = s.regs := rfl
@[simp] theorem State.setCmp_inflight (s : State) (o : Ordering) : (s.setCmp o).inflight = s.inflight := rfl
@[simp] theorem State.setCmp_c (s : State) (o : Ordering) : (s.setCmp o).c = s.c := rfl
@[simp] theorem State.setCmp_cmp (s : State) (o : Ordering) : (s.setCmp o).cmp = cmpCode o := rfl
@[simp] theorem State.setCmp_err (s : State) (o : Ordering) : (s.setCmp o).err = s.err := rfl
@[simp] theorem State.setCmp_esticky (s : State) (o : Ordering) : (s.setCmp o).esticky = s.esticky := rfl
@[simp] theorem State.setCmp_ovr (s : State) (o : Ordering) : (s.setCmp o).ovr = s.ovr := rfl
@[simp] theorem State.setCmp_berr (s : State) (o : Ordering) : (s.setCmp o).berr = s.berr := rfl
@[simp] theorem State.setCmp_events (s : State) (o : Ordering) : (s.setCmp o).events = s.events := rfl
@[simp] theorem State.setCmp_readLog (s : State) (o : Ordering) : (s.setCmp o).readLog = s.readLog := rfl
@[simp] theorem State.setCmp_freeCount (s : State) (o : Ordering) : (s.setCmp o).freeCount = s.freeCount := rfl

/-! ### succeed -/

@[simp] theorem State.succeed_regs (s : State) : (s.succeed).regs = s.regs := rfl
@[simp] theorem State.succeed_inflight (s : State) : (s.succeed).inflight = none := rfl
@[simp] theorem State.succeed_c (s : State) : (s.succeed).c = s.c := rfl
@[simp] theorem State.succeed_cmp (s : State) : (s.succeed).cmp = s.cmp := rfl
@[simp] theorem State.succeed_err (s : State) : (s.succeed).err = errNone := rfl
@[simp] theorem State.succeed_esticky (s : State) : (s.succeed).esticky = s.esticky := rfl
@[simp] theorem State.succeed_ovr (s : State) : (s.succeed).ovr = s.ovr := rfl
@[simp] theorem State.succeed_berr (s : State) : (s.succeed).berr = s.berr := rfl
@[simp] theorem State.succeed_events (s : State) : (s.succeed).events = s.events := rfl
@[simp] theorem State.succeed_readLog (s : State) : (s.succeed).readLog = s.readLog := rfl
@[simp] theorem State.succeed_freeCount (s : State) : (s.succeed).freeCount = s.freeCount := rfl

/-! ### raise -/

@[simp] theorem State.raise_regs (s : State) (e : ErrCode) : (s.raise e).regs = s.regs := rfl
@[simp] theorem State.raise_inflight (s : State) (e : ErrCode) : (s.raise e).inflight = none := rfl
@[simp] theorem State.raise_c (s : State) (e : ErrCode) : (s.raise e).c = s.c := rfl
@[simp] theorem State.raise_cmp (s : State) (e : ErrCode) : (s.raise e).cmp = s.cmp := rfl
@[simp] theorem State.raise_err (s : State) (e : ErrCode) : (s.raise e).err = e.code := rfl
@[simp] theorem State.raise_esticky (s : State) (e : ErrCode) : (s.raise e).esticky = true := rfl
@[simp] theorem State.raise_ovr (s : State) (e : ErrCode) : (s.raise e).ovr = s.ovr := rfl
@[simp] theorem State.raise_berr (s : State) (e : ErrCode) : (s.raise e).berr = s.berr := rfl
@[simp] theorem State.raise_events (s : State) (e : ErrCode) : (s.raise e).events = s.events := rfl
@[simp] theorem State.raise_readLog (s : State) (e : ErrCode) : (s.raise e).readLog = s.readLog := rfl
@[simp] theorem State.raise_freeCount (s : State) (e : ErrCode) : (s.raise e).freeCount = s.freeCount := rfl

/-! ### writeStatus -/

@[simp] theorem State.writeStatus_regs (s : State) (v : Word) : (s.writeStatus v).regs = s.regs := rfl
@[simp] theorem State.writeStatus_inflight (s : State) (v : Word) : (s.writeStatus v).inflight = s.inflight := rfl
@[simp] theorem State.writeStatus_c (s : State) (v : Word) : (s.writeStatus v).c = s.c := rfl
@[simp] theorem State.writeStatus_cmp (s : State) (v : Word) : (s.writeStatus v).cmp = s.cmp := rfl
@[simp] theorem State.writeStatus_err (s : State) (v : Word) : (s.writeStatus v).err = s.err := rfl
@[simp] theorem State.writeStatus_esticky (s : State) (v : Word) : (s.writeStatus v).esticky = (s.esticky && !v.getLsbD 8) := rfl
@[simp] theorem State.writeStatus_ovr (s : State) (v : Word) : (s.writeStatus v).ovr = (s.ovr && !v.getLsbD 9) := rfl
@[simp] theorem State.writeStatus_berr (s : State) (v : Word) : (s.writeStatus v).berr = (s.berr && !v.getLsbD 10) := rfl
@[simp] theorem State.writeStatus_events (s : State) (v : Word) : (s.writeStatus v).events = s.events := rfl
@[simp] theorem State.writeStatus_readLog (s : State) (v : Word) : (s.writeStatus v).readLog = s.readLog := rfl
@[simp] theorem State.writeStatus_freeCount (s : State) (v : Word) : (s.writeStatus v).freeCount = s.freeCount := rfl

/-! ### hardwareReset -/

@[simp] theorem State.hardwareReset_regs (s : State) : (s.hardwareReset).regs = State.reset.regs := rfl
@[simp] theorem State.hardwareReset_inflight (s : State) : (s.hardwareReset).inflight = State.reset.inflight := rfl
@[simp] theorem State.hardwareReset_c (s : State) : (s.hardwareReset).c = State.reset.c := rfl
@[simp] theorem State.hardwareReset_cmp (s : State) : (s.hardwareReset).cmp = State.reset.cmp := rfl
@[simp] theorem State.hardwareReset_err (s : State) : (s.hardwareReset).err = State.reset.err := rfl
@[simp] theorem State.hardwareReset_esticky (s : State) : (s.hardwareReset).esticky = State.reset.esticky := rfl
@[simp] theorem State.hardwareReset_ovr (s : State) : (s.hardwareReset).ovr = State.reset.ovr := rfl
@[simp] theorem State.hardwareReset_berr (s : State) : (s.hardwareReset).berr = State.reset.berr := rfl
@[simp] theorem State.hardwareReset_events (s : State) : (s.hardwareReset).events = s.events := rfl
@[simp] theorem State.hardwareReset_readLog (s : State) : (s.hardwareReset).readLog = s.readLog := rfl
@[simp] theorem State.hardwareReset_freeCount (s : State) : (s.hardwareReset).freeCount = s.freeCount := rfl

/-! ### withFetchWord -/

@[simp] theorem State.withFetchWord_regs (s : State) (nbits w : Nat) : (s.withFetchWord nbits w).regs = s.regs := rfl
@[simp] theorem State.withFetchWord_inflight (s : State) (nbits w : Nat) : (s.withFetchWord nbits w).inflight = some (tableWord nbits w) := rfl
@[simp] theorem State.withFetchWord_c (s : State) (nbits w : Nat) : (s.withFetchWord nbits w).c = s.c := rfl
@[simp] theorem State.withFetchWord_cmp (s : State) (nbits w : Nat) : (s.withFetchWord nbits w).cmp = s.cmp := rfl
@[simp] theorem State.withFetchWord_err (s : State) (nbits w : Nat) : (s.withFetchWord nbits w).err = s.err := rfl
@[simp] theorem State.withFetchWord_esticky (s : State) (nbits w : Nat) : (s.withFetchWord nbits w).esticky = s.esticky := rfl
@[simp] theorem State.withFetchWord_ovr (s : State) (nbits w : Nat) : (s.withFetchWord nbits w).ovr = s.ovr := rfl
@[simp] theorem State.withFetchWord_berr (s : State) (nbits w : Nat) : (s.withFetchWord nbits w).berr = s.berr := rfl
@[simp] theorem State.withFetchWord_events (s : State) (nbits w : Nat) : (s.withFetchWord nbits w).events = .complete :: s.events := rfl
@[simp] theorem State.withFetchWord_readLog (s : State) (nbits w : Nat) : (s.withFetchWord nbits w).readLog = s.readLog := rfl
@[simp] theorem State.withFetchWord_freeCount (s : State) (nbits w : Nat) : (s.withFetchWord nbits w).freeCount = s.freeCount := rfl

end Sys2Proof.Machine
end

