-- ==== Sys2Proof/Laws/Ops.lean ====
section
/-! SUPPORT. What the shared operations do: value registers, completion, the host's accesses. -/

namespace Sys2Proof.Machine

/-! ### Value registers -/

/-- x[i] depends on the registers alone. -/
theorem x_congr {s t : State} {i : RegId} (h : t.regs = s.regs) : t.x i = s.x i := by
  simp only [State.x, State.limbValue, State.limbAt, h]

theorem limbAt_congr {s t : State} {i : RegId} {j : LimbId} (h : t.regs = s.regs) : t.limbAt i j = s.limbAt i j := by
  simp only [State.limbAt, h]

@[simp] theorem x_setC (s : State) (b : Bool) (i : RegId) : (s.setC b).x i = s.x i := rfl
@[simp] theorem x_setCmp (s : State) (o : Ordering) (i : RegId) : (s.setCmp o).x i = s.x i := rfl
@[simp] theorem x_succeed (s : State) (i : RegId) : s.succeed.x i = s.x i := rfl
@[simp] theorem x_raise (s : State) (e : ErrCode) (i : RegId) : (s.raise e).x i = s.x i := rfl
@[simp] theorem limbAt_setC (s : State) (b : Bool) (i : RegId) (j : LimbId) : (s.setC b).limbAt i j = s.limbAt i j := rfl
@[simp] theorem limbAt_setCmp (s : State) (o : Ordering) (i : RegId) (j : LimbId) :
    (s.setCmp o).limbAt i j = s.limbAt i j := rfl
@[simp] theorem limbAt_succeed (s : State) (i : RegId) (j : LimbId) : s.succeed.limbAt i j = s.limbAt i j := rfl
@[simp] theorem limbAt_raise (s : State) (e : ErrCode) (i : RegId) (j : LimbId) :
    (s.raise e).limbAt i j = s.limbAt i j := rfl

theorem writtenLimbs_get (v : Value) (j : LimbId) : (writtenLimbs v)[j.val] = ⟨limb v j.val, true⟩ := by
  obtain ⟨j, hj⟩ := j
  match j, hj with
  | 0, _ => rfl
  | 1, _ => rfl
  | 2, _ => rfl
  | 3, _ => rfl

theorem limbAt_setX (s : State) (i r : RegId) (v : Value) (j : LimbId) :
    (s.setX i v).limbAt r j = if r = i then ⟨limb v j.val, true⟩ else s.limbAt r j := by
  simp only [State.limbAt, State.setX_regs, Vector.getElem_set]
  by_cases h : r = i
  · subst h; simp [writtenLimbs_get]
  · simp [h, Ne.symm (mt Fin.ext h)]

@[simp] theorem limbAt_setX_self (s : State) (i : RegId) (v : Value) (j : LimbId) :
    (s.setX i v).limbAt i j = ⟨limb v j.val, true⟩ := by
  simp [limbAt_setX]

theorem limbAt_setX_ne (s : State) {i r : RegId} (v : Value) (j : LimbId) (h : r ≠ i) :
    (s.setX i v).limbAt r j = s.limbAt r j := by
  simp [limbAt_setX, h]

theorem limbAt_setLimb (s : State) (i r : RegId) (j k : LimbId) (v : Word) :
    (s.setLimb i j v).limbAt r k = if r = i ∧ k = j then ⟨v, true⟩ else s.limbAt r k := by
  simp only [State.limbAt, State.setLimb_regs, Vector.getElem_set]
  by_cases h : r = i
  · subst h
    by_cases hk : k = j
    · subst hk; simp
    · simp [hk, Ne.symm (mt Fin.ext hk)]
  · simp [h, Ne.symm (mt Fin.ext h)]

/-- A register reads back what a command wrote to it. -/
@[simp] theorem x_setX_self (s : State) (i : RegId) (v : Value) : (s.setX i v).x i = v := by
  simp only [State.x, State.limbValue, limbAt_setX_self]
  exact ofLimbs_toLimbs v

theorem x_setX_ne (s : State) {i r : RegId} (v : Value) (h : r ≠ i) : (s.setX i v).x r = s.x r := by
  simp only [State.x, State.limbValue, limbAt_setX_ne s v _ h]

/-- A limb of x[i] is the limb the host reads. -/
theorem limb_x (s : State) (i : RegId) (j : LimbId) : limb (s.x i) j.val = s.limbValue i j := by
  have h := toLimbs_ofLimbs (s.limbValue i 0) (s.limbValue i 1) (s.limbValue i 2) (s.limbValue i 3)
  simp only [toLimbs, List.cons.injEq, and_true] at h
  obtain ⟨h0, h1, h2, h3⟩ := h
  obtain ⟨j, hj⟩ := j
  match j, hj with
  | 0, _ => exact h0
  | 1, _ => exact h1
  | 2, _ => exact h2
  | 3, _ => exact h3

@[simp] theorem allWritten_setX_self (s : State) (i : RegId) (v : Value) : (s.setX i v).allWritten i = true := by
  simp [State.allWritten]

theorem allWritten_congr {s t : State} {i : RegId} (h : t.regs = s.regs) : t.allWritten i = s.allWritten i := by
  simp only [State.allWritten, State.limbAt, h]

@[simp] theorem allWritten_setC (s : State) (b : Bool) (i : RegId) : (s.setC b).allWritten i = s.allWritten i := rfl
@[simp] theorem allWritten_succeed (s : State) (i : RegId) : s.succeed.allWritten i = s.allWritten i := rfl

/-! ### Completion -/

/-- One register written, with or without C. -/
theorem doneWriting_one (s : State) (rd : RegId) (v : Value) : s.DoneWriting (s.setX rd v).succeed [rd] :=
  ⟨fun r hr j => by simpa using limbAt_setX_ne s v j (by simpa using hr),
   fun r hr => by simp only [List.mem_singleton] at hr; subst hr; simp, rfl, rfl, rfl, rfl, rfl, rfl, rfl, rfl⟩

theorem doneWriting_setC (s : State) (rd : RegId) (v : Value) (b : Bool) :
    s.DoneWriting ((s.setX rd v).setC b).succeed [rd] :=
  ⟨fun r hr j => by simpa using limbAt_setX_ne s v j (by simpa using hr),
   fun r hr => by simp only [List.mem_singleton] at hr; subst hr; simp, rfl, rfl, rfl, rfl, rfl, rfl, rfl, rfl⟩

theorem doneWriting_two (s : State) (rd rm : RegId) (v u : Value) :
    s.DoneWriting ((s.setX rd v).setX rm u).succeed [rd, rm] := by
  refine ⟨fun r hr j => ?_, fun r hr => ?_, rfl, rfl, rfl, rfl, rfl, rfl, rfl, rfl⟩
  · simp only [List.mem_cons, List.not_mem_nil, or_false, not_or] at hr
    rw [limbAt_succeed, limbAt_setX_ne _ _ _ hr.2, limbAt_setX_ne _ _ _ hr.1]
  · by_cases hm : r = rm
    · subst hm; simp
    · have hd : r = rd := by simpa [hm] using hr
      subst hd
      simp [State.allWritten, limbAt_setX_ne _ _ _ hm]

theorem doneWriting_none (s : State) (o : Ordering) : s.DoneWriting (s.setCmp o).succeed [] :=
  ⟨fun _ _ _ => rfl, fun r hr => by simp at hr, rfl, rfl, rfl, rfl, rfl, rfl, rfl, rfl⟩

theorem doneInError_raise (s : State) (e : ErrCode) : s.DoneInError (s.raise e) e.code :=
  ⟨fun _ _ => rfl, rfl, rfl, rfl, rfl, rfl, rfl, rfl, rfl, rfl, rfl⟩

theorem ErrCode.code_ne_zero (e : ErrCode) : e.code ≠ 0 := by cases e <;> decide

theorem ErrCode.code_le (e : ErrCode) : e.code.toNat ≤ 5 := by cases e <;> decide

theorem cmpCode_legal (o : Ordering) : cmpCode o ≠ 0b11 := by cases o <;> decide

theorem statusLegal_iff (s : State) : s.statusLegal = true ↔ s.Inv := by
  simp [State.statusLegal, State.Inv]

/-! ### The register window -/

theorem accessTarget_limb (i : RegId) (j : LimbId) :
    accessTarget (BitVec.ofNat 10 (0x20 * i.val + 8 * j.val)) .b8 = some (.limb i j) := by
  revert i j; decide

theorem accessTarget_cmd : accessTarget 0x200 .b8 = some .cmd := by decide

theorem accessTarget_status : accessTarget 0x208 .b8 = some .status := by decide

end Sys2Proof.Machine
end

