-- ==== Sys2Proof/Laws/Exec.lean ====
section
/-! SUPPORT. What completing a command can do, said once for every instruction. -/

namespace Sys2Proof.Machine

/-- A completion of `i` without an error: its destinations written, C and CMP only where it writes them. -/
structure Committed (i : Instr) (s t : State) : Prop where
  done : s.DoneWriting t (dests i)
  c_kept : writesC i = false → t.c = s.c
  cmp_kept : writesCmp i = false → t.cmp = s.cmp
  cmp_legal : s.cmp ≠ 0b11 → t.cmp ≠ 0b11

/-- The two ways a command ends (R106): in an error, or with its writes. -/
def EndsWell (i : Instr) (s : State) (r : Result) : Prop :=
  ∃ t, r = .next t ∧ ((∃ e, t = s.raise e) ∨ Committed i s t)

theorem endsWell_raise (i : Instr) (s : State) (e : ErrCode) : EndsWell i s (raiseError e s) := ⟨_, rfl, .inl ⟨e, rfl⟩⟩

theorem endsWell_one (i : Instr) (s : State) (rd : RegId) (v : Value) (h : dests i = [rd]) :
    EndsWell i s (writeOne rd v s) :=
  ⟨_, rfl, .inr ⟨h ▸ doneWriting_one s rd v, fun _ => rfl, fun _ => rfl, fun h => h⟩⟩

theorem endsWell_two (i : Instr) (s : State) (rd rm : RegId) (v u : Value) (h : dests i = [rd, rm]) :
    EndsWell i s (writeTwo rd v rm u s) :=
  ⟨_, rfl, .inr ⟨h ▸ doneWriting_two s rd rm v u, fun _ => rfl, fun _ => rfl, fun h => h⟩⟩

theorem endsWell_carry (i : Instr) (s : State) (rd : RegId) (v : Value) (b : Bool) (h : dests i = [rd])
    (hc : writesC i = true) : EndsWell i s (.next ((s.setX rd v).setC b).succeed) :=
  ⟨_, rfl, .inr ⟨h ▸ doneWriting_setC s rd v b, fun h => by simp [hc] at h, fun _ => rfl, fun h => h⟩⟩

theorem endsWell_compare (i : Instr) (s : State) (o : Ordering) (h : dests i = []) (hc : writesCmp i = true) :
    EndsWell i s (.next (s.setCmp o).succeed) :=
  ⟨_, rfl, .inr ⟨h ▸ doneWriting_none s o, fun _ => rfl, fun h => by simp [hc] at h, fun _ => cmpCode_legal o⟩⟩

theorem endsWell_ite (i : Instr) (s : State) (p : Prop) [Decidable p] {a b : Result} (ha : EndsWell i s a)
    (hb : EndsWell i s b) : EndsWell i s (if p then a else b) := by
  split <;> assumption

/-- Every command ends, in an error or with its writes, whatever the state (R800). -/
theorem exec_endsWell (i : Instr) (s : State) : EndsWell i s (exec i s) := by
  cases i with
  | addU rd ra rb => exact endsWell_carry _ s rd _ _ rfl rfl
  | addS rd ra rb => exact endsWell_carry _ s rd _ _ rfl rfl
  | subU rd ra rb => exact endsWell_carry _ s rd _ _ rfl rfl
  | subS rd ra rb => exact endsWell_carry _ s rd _ _ rfl rfl
  | mulU rd ra rb => exact endsWell_one _ s rd _ rfl
  | mulS rd ra rb => exact endsWell_one _ s rd _ rfl
  | divU rd ra rb => exact endsWell_ite _ s _ (endsWell_raise _ s _) (endsWell_one _ s rd _ rfl)
  | divS rd ra rb => exact endsWell_ite _ s _ (endsWell_raise _ s _) (endsWell_one _ s rd _ rfl)
  | addmodU rd ra rb rm => exact endsWell_ite _ s _ (endsWell_raise _ s _) (endsWell_one _ s rd _ rfl)
  | addmodS rd ra rb rm => exact endsWell_ite _ s _ (endsWell_raise _ s _) (endsWell_one _ s rd _ rfl)
  | submodS rd ra rb rm => exact endsWell_ite _ s _ (endsWell_raise _ s _) (endsWell_one _ s rd _ rfl)
  | mulmodU rd ra rb rm => exact endsWell_ite _ s _ (endsWell_raise _ s _) (endsWell_one _ s rd _ rfl)
  | mulmodS rd ra rb rm => exact endsWell_ite _ s _ (endsWell_raise _ s _) (endsWell_one _ s rd _ rfl)
  | expU rd ra rb => exact endsWell_one _ s rd _ rfl
  | expS rd ra rb => exact endsWell_ite _ s _ (endsWell_raise _ s _) (endsWell_one _ s rd _ rfl)
  | expmodU rd ra rb rm => exact endsWell_ite _ s _ (endsWell_raise _ s _) (endsWell_one _ s rd _ rfl)
  | expmodS rd ra rb rm =>
    exact endsWell_ite _ s _ (endsWell_raise _ s _)
      (endsWell_ite _ s _ (endsWell_raise _ s _) (endsWell_one _ s rd _ rfl))
  | shlU rd ra rb =>
    exact endsWell_ite _ s _ (endsWell_raise _ s _)
      (endsWell_ite _ s _ (endsWell_one _ s rd _ rfl) (endsWell_one _ s rd _ rfl))
  | shlS rd ra rb =>
    exact endsWell_ite _ s _ (endsWell_raise _ s _)
      (endsWell_ite _ s _ (endsWell_one _ s rd _ rfl) (endsWell_one _ s rd _ rfl))
  | shrU rd ra rb =>
    exact endsWell_ite _ s _ (endsWell_raise _ s _)
      (endsWell_ite _ s _ (endsWell_one _ s rd _ rfl) (endsWell_one _ s rd _ rfl))
  | shrS rd ra rb =>
    exact endsWell_ite _ s _ (endsWell_raise _ s _)
      (endsWell_ite _ s _ (endsWell_one _ s rd _ rfl) (endsWell_one _ s rd _ rfl))
  | cmpU ra rb => exact endsWell_compare _ s _ rfl rfl
  | cmpS ra rb => exact endsWell_compare _ s _ rfl rfl
  | mulw rd ra rb rh => exact endsWell_ite _ s _ (endsWell_raise _ s _) (endsWell_two _ s rd rh _ _ rfl)
  | divmod rq ra rb rr =>
    exact endsWell_ite _ s _ (endsWell_raise _ s _)
      (endsWell_ite _ s _ (endsWell_raise _ s _) (endsWell_two _ s rq rr _ _ rfl))
  | ldiU rd imm => exact endsWell_one _ s rd _ rfl
  | ldiS rd imm => exact endsWell_one _ s rd _ rfl

end Sys2Proof.Machine
end

