-- ==== Sys2Proof/Laws/PerInstr.lean ====
section
/-! SUPPORT. Per-instruction lemma families (LAWS.json). ReservedZero: the bits that are zero in every command word,
bits 63:32 of the CMD write and bit 7 (30_encoding R301, R310). -/

namespace Sys2Proof.Laws.ReservedZero

/-- Bits 63:32 and bit 7 of a command's CMD word are 0. -/
def Statement (i : Instr) : Prop := (encode i).extractLsb' 32 32 = 0 ∧ (encode i).getLsbD 7 = false

theorem low_bit {hi : BitVec 24} {low : BitVec 8} (h : low.getLsbD 7 = false) :
    ((hi ++ low : BitVec 32).setWidth 64).getLsbD 7 = false := by
  rw [BitVec.getLsbD_setWidth, BitVec.getLsbD_append]
  simpa using h

theorem of_low_bit {i : Instr} {hi : BitVec 24} {low : BitVec 8} (he : encodeCommand i = (hi ++ low : BitVec 32))
    (h : low.getLsbD 7 = false) : Statement i :=
  ⟨upper_setWidth _, by rw [encode, he]; exact low_bit h⟩

theorem addU (rd ra rb : RegId) : Statement (.addU rd ra rb) := of_low_bit rfl (by decide)
theorem addS (rd ra rb : RegId) : Statement (.addS rd ra rb) := of_low_bit rfl (by decide)
theorem subU (rd ra rb : RegId) : Statement (.subU rd ra rb) := of_low_bit rfl (by decide)
theorem subS (rd ra rb : RegId) : Statement (.subS rd ra rb) := of_low_bit rfl (by decide)
theorem mulU (rd ra rb : RegId) : Statement (.mulU rd ra rb) := of_low_bit rfl (by decide)
theorem mulS (rd ra rb : RegId) : Statement (.mulS rd ra rb) := of_low_bit rfl (by decide)
theorem divU (rd ra rb : RegId) : Statement (.divU rd ra rb) := of_low_bit rfl (by decide)
theorem divS (rd ra rb : RegId) : Statement (.divS rd ra rb) := of_low_bit rfl (by decide)
theorem addmodU (rd ra rb rm : RegId) : Statement (.addmodU rd ra rb rm) := of_low_bit rfl (by decide)
theorem addmodS (rd ra rb rm : RegId) : Statement (.addmodS rd ra rb rm) := of_low_bit rfl (by decide)
theorem submodS (rd ra rb rm : RegId) : Statement (.submodS rd ra rb rm) := of_low_bit rfl (by decide)
theorem mulmodU (rd ra rb rm : RegId) : Statement (.mulmodU rd ra rb rm) := of_low_bit rfl (by decide)
theorem mulmodS (rd ra rb rm : RegId) : Statement (.mulmodS rd ra rb rm) := of_low_bit rfl (by decide)
theorem expU (rd ra rb : RegId) : Statement (.expU rd ra rb) := of_low_bit rfl (by decide)
theorem expS (rd ra rb : RegId) : Statement (.expS rd ra rb) := of_low_bit rfl (by decide)
theorem expmodU (rd ra rb rm : RegId) : Statement (.expmodU rd ra rb rm) := of_low_bit rfl (by decide)
theorem expmodS (rd ra rb rm : RegId) : Statement (.expmodS rd ra rb rm) := of_low_bit rfl (by decide)
theorem shlU (rd ra rb : RegId) : Statement (.shlU rd ra rb) := of_low_bit rfl (by decide)
theorem shlS (rd ra rb : RegId) : Statement (.shlS rd ra rb) := of_low_bit rfl (by decide)
theorem shrU (rd ra rb : RegId) : Statement (.shrU rd ra rb) := of_low_bit rfl (by decide)
theorem shrS (rd ra rb : RegId) : Statement (.shrS rd ra rb) := of_low_bit rfl (by decide)
theorem cmpU (ra rb : RegId) : Statement (.cmpU ra rb) := of_low_bit rfl (by decide)
theorem cmpS (ra rb : RegId) : Statement (.cmpS ra rb) := of_low_bit rfl (by decide)
theorem mulw (rd ra rb rh : RegId) : Statement (.mulw rd ra rb rh) := of_low_bit rfl (by decide)
theorem divmod (rq ra rb rr : RegId) : Statement (.divmod rq ra rb rr) := of_low_bit rfl (by decide)
theorem ldiU (rd : RegId) (imm : BitVec 16) : Statement (.ldiU rd imm) := of_low_bit rfl (by decide)
theorem ldiS (rd : RegId) (imm : BitVec 16) : Statement (.ldiS rd imm) := of_low_bit rfl (by decide)

end Sys2Proof.Laws.ReservedZero
end

