-- ==== Sys2Proof/Laws/Shifter.lean ====
section
/-! SUPPORT. The barrel shifter's limb formulas are the shifts of the whole pattern (R650). -/

namespace Sys2Proof.Machine

theorem value_ext_limbs {u v : Value} (h : ∀ j, j < 4 → limb u j = limb v j) : u = v := by
  rw [← ofLimbs_toLimbs u, ← ofLimbs_toLimbs v]
  simp [toLimbs, h 0, h 1, h 2, h 3]

theorem limb_ofLimbs (a b c d : Word) :
    limb (ofLimbs [a, b, c, d] : Value) 0 = a ∧ limb (ofLimbs [a, b, c, d] : Value) 1 = b ∧
    limb (ofLimbs [a, b, c, d] : Value) 2 = c ∧ limb (ofLimbs [a, b, c, d] : Value) 3 = d := by
  simpa [toLimbs] using toLimbs_ofLimbs a b c d

theorem getLsbD_limb {n : Nat} (v : BitVec n) (j k : Nat) :
    (limb v j).getLsbD k = (decide (k < 64) && v.getLsbD (64 * j + k)) := by
  simp [limb]

theorem getLsbD_extLimb (a : Value) (k : Int) (F : Word) (b : Nat) (hb : b < 64) :
    (extLimb a k F).getLsbD b =
      if k < 0 then false else if k ≤ 3 then a.getLsbD (64 * k.toNat + b) else F.getLsbD b := by
  unfold extLimb
  split
  · simp
  · split
    · rw [getLsbD_limb]; simp [hb]
    · rfl

theorem limb_shiftLeft (a : Value) (n j : Nat) (hj : j < 4) : limb (a <<< n) j = shiftLeftLimb a n j := by
  apply BitVec.eq_of_getLsbD_eq
  intro b hb
  have hn := Nat.div_add_mod n 64
  have hr := Nat.mod_lt n (show 64 > 0 by decide)
  rw [getLsbD_limb]
  simp only [shiftLeftLimb, BitVec.getLsbD_or, BitVec.getLsbD_shiftLeft, hb, decide_true, Bool.true_and]
  have hlo : ((if n % 64 ≠ 0 then extLimb a (j - (n / 64 : Nat) - 1) 0 >>> (64 - n % 64) else 0) : Word).getLsbD b
      = (decide (b < n % 64) && (extLimb a (j - (n / 64 : Nat) - 1) 0).getLsbD (64 - n % 64 + b)) := by
    split
    · rw [BitVec.getLsbD_ushiftRight]
      by_cases hbr : b < n % 64
      · simp [hbr]
      · have : 64 ≤ 64 - n % 64 + b := by omega
        simp [hbr, BitVec.getLsbD_of_ge _ _ this]
    · have : n % 64 = 0 := by omega
      simp [this]
  rw [show ((n / 64 : Nat) : Int) = (n : Int) / 64 by simp] at hlo
  rw [hlo]
  by_cases hbr : b < n % 64
  · rw [getLsbD_extLimb a ((j : Int) - (n : Int) / 64 - 1) 0 (64 - n % 64 + b) (by omega)]
    simp only [hbr, decide_true, Bool.not_true, Bool.false_and, Bool.true_and, Bool.false_or]
    by_cases hq : n ≤ 64 * j + b
    · rw [if_neg (by omega), if_pos (by omega)]
      have : 64 * ((j : Int) - (n : Int) / 64 - 1).toNat + (64 - n % 64 + b) = 64 * j + b - n := by omega
      rw [this]
      simp [show 64 * j + b < 256 by omega, show ¬ 64 * j + b < n by omega]
    · rw [if_pos (by omega)]
      simp [show 64 * j + b < n by omega]
  · rw [getLsbD_extLimb _ _ _ _ (by omega)]
    simp only [hbr, decide_false, Bool.not_false, Bool.false_and, Bool.true_and, Bool.or_false]
    by_cases hq : n ≤ 64 * j + b
    · rw [if_neg (by omega), if_pos (by omega)]
      have : 64 * ((j : Int) - (n : Int) / 64).toNat + (b - n % 64) = 64 * j + b - n := by omega
      rw [this]
      simp [show 64 * j + b < 256 by omega, show ¬ 64 * j + b < n by omega]
    · rw [if_pos (by omega)]
      simp [show 64 * j + b < n by omega]

/-- ShiftLeft is the logical left shift (R650). -/
theorem shiftLeft_eq (a : Value) (n : Nat) : shiftLeft a n = a <<< n := by
  obtain ⟨h0, h1, h2, h3⟩ := limb_ofLimbs (shiftLeftLimb a n 0) (shiftLeftLimb a n 1) (shiftLeftLimb a n 2) (shiftLeftLimb a n 3)
  apply value_ext_limbs
  intro j hj
  rw [limb_shiftLeft a n j hj, shiftLeft]
  match j, hj with
  | 0, _ => exact h0
  | 1, _ => exact h1
  | 2, _ => exact h2
  | 3, _ => exact h3

/-- The bit that a right shift by n brings to bit 64j + b: a's own, or the fill's beyond bit 255. -/
theorem getLsbD_shiftRightLimb (a : Value) (n : Nat) (F : Word) (fill : Bool) (j b : Nat) (hb : b < 64)
    (hF : ∀ k, k < 64 → F.getLsbD k = fill) :
    (shiftRightLimb a n F j).getLsbD b = if 64 * j + b + n < 256 then a.getLsbD (64 * j + b + n) else fill := by
  have hn := Nat.div_add_mod n 64
  have hr := Nat.mod_lt n (show 64 > 0 by decide)
  simp only [shiftRightLimb, BitVec.getLsbD_or, BitVec.getLsbD_ushiftRight]
  have hext : ∀ (k : Int) (c : Nat), c < 64 → 0 ≤ k →
      (extLimb a k F).getLsbD c = if 64 * k.toNat + c < 256 then a.getLsbD (64 * k.toNat + c) else fill := by
    intro k c hc hk
    rw [getLsbD_extLimb _ _ _ _ hc, if_neg (by omega)]
    by_cases h3 : k ≤ 3
    · rw [if_pos h3, if_pos (by omega)]
    · rw [if_neg h3, if_neg (by omega), hF c hc]
  by_cases hbr : n % 64 + b < 64
  · have hlo : ((if n % 64 ≠ 0 then extLimb a (j + (n : Int) / 64 + 1) F <<< (64 - n % 64) else 0) : Word).getLsbD b = false := by
      split
      · rw [BitVec.getLsbD_shiftLeft]
        simp [show b < 64 - n % 64 by omega]
      · simp
    rw [hlo, Bool.or_false, hext _ _ hbr (by omega)]
    have : 64 * ((j : Int) + (n : Int) / 64).toNat + (n % 64 + b) = 64 * j + b + n := by omega
    rw [this]
  · have hhi : (extLimb a (j + (n : Int) / 64) F).getLsbD (n % 64 + b) = false := BitVec.getLsbD_of_ge _ _ (by omega)
    rw [hhi, Bool.false_or, if_pos (by omega), BitVec.getLsbD_shiftLeft, hext _ _ (by omega) (by omega)]
    have : 64 * ((j : Int) + (n : Int) / 64 + 1).toNat + (b - (64 - n % 64)) = 64 * j + b + n := by omega
    rw [this]
    simp [hb, show ¬ b < 64 - n % 64 by omega]

theorem shiftRight_bits (a : Value) (n : Nat) (F : Word) (fill : Bool) (hF : ∀ k, k < 64 → F.getLsbD k = fill)
    (i : Nat) (hi : i < 256) :
    (shiftRight a n F).getLsbD i = if i + n < 256 then a.getLsbD (i + n) else fill := by
  obtain ⟨h0, h1, h2, h3⟩ := limb_ofLimbs (shiftRightLimb a n F 0) (shiftRightLimb a n F 1) (shiftRightLimb a n F 2) (shiftRightLimb a n F 3)
  have hl : ∀ j, j < 4 → limb (shiftRight a n F) j = shiftRightLimb a n F j := by
    intro j hj
    rw [shiftRight]
    match j, hj with
    | 0, _ => exact h0
    | 1, _ => exact h1
    | 2, _ => exact h2
    | 3, _ => exact h3
  have hb : i % 64 < 64 := Nat.mod_lt _ (by decide)
  have h := getLsbD_limb (shiftRight a n F) (i / 64) (i % 64)
  rw [hl _ (by omega), getLsbD_shiftRightLimb a n F fill _ _ hb hF, Nat.div_add_mod] at h
  simpa [hb] using h.symm

/-- ShiftRight with a zero fill is the logical right shift (R650). -/
theorem shiftRight_zero (a : Value) (n : Nat) : shiftRight a n 0 = a >>> n := by
  apply BitVec.eq_of_getLsbD_eq
  intro i hi
  rw [shiftRight_bits a n 0 false (by simp) i hi, BitVec.getLsbD_ushiftRight]
  split
  · rw [Nat.add_comm]
  · exact (BitVec.getLsbD_of_ge _ _ (by omega)).symm

/-- ShiftRight with the sign fill is the arithmetic right shift (R650, R653). -/
theorem shiftRight_sign (a : Value) (n : Nat) : shiftRight a n (signFill a) = a.sshiftRight n := by
  apply BitVec.eq_of_getLsbD_eq
  intro i hi
  have hF : ∀ k, k < 64 → (signFill a).getLsbD k = isNeg a := by
    intro k hk
    cases h : isNeg a
    · simp [signFill, h]
    · rw [signFill, h, if_pos rfl, BitVec.getLsbD_allOnes, decide_eq_true hk]
  rw [shiftRight_bits a n _ (isNeg a) hF i hi, BitVec.getLsbD_sshiftRight]
  simp only [show ¬ 256 ≤ i by omega, decide_false, Bool.not_false, Bool.true_and]
  rw [Nat.add_comm]
  rfl

end Sys2Proof.Machine
end

