-- ==== Sys2Proof/Laws/Step.lean ====
section
/-! SUPPORT. One step taken apart: the STATUS check, the events, the completion of a word, the accesses to the window. -/

namespace Sys2Proof.Machine

/-! ### The step -/

theorem step_of_inv {s : State} (h : s.Inv) : step s = runNext s := by
  rw [step, if_pos ((statusLegal_iff s).mpr h)]

theorem inv_of_step_next {s t : State} (h : step s = .next t) : s.Inv ∧ runNext s = .next t := by
  rw [step] at h
  split at h
  · exact ⟨(statusLegal_iff s).mp ‹_›, h⟩
  · cases h

theorem run_succ_of_next (M : Host.Core) (k : Nat) (s s' : M.State) (h : M.step s = .next s') :
    M.run (k + 1) s = M.run k s' := by
  simp only [Host.Core.run, h]

/-- A run takes its first step. -/
theorem core_run_succ {s s' : State} (k : Nat) (h : step s = .next s') : core.run (k + 1) s = core.run k s' :=
  run_succ_of_next core k s s' h

/-- A word completes in an error, or decodes to a command that commits (R106). -/
theorem completeWord_ends (W : Word) (s : State) :
    (∃ e, completeWord W s = .next (s.raise e)) ∨
    ∃ i t, decode W = .ok i ∧ completeWord W s = .next t ∧ Committed i s t := by
  cases h : decode W with
  | error e => exact .inl ⟨.illegal, by rw [completeWord, h]; rfl⟩
  | ok i =>
    obtain ⟨t, ht, ⟨e, rfl⟩ | hc⟩ := exec_endsWell i s
    · exact .inl ⟨e, by rw [completeWord, h]; exact ht⟩
    · exact .inr ⟨i, t, rfl, by rw [completeWord, h]; exact ht, hc⟩

/-! ### Accesses to the window -/

/-- R201: the accesses that are not defined. -/
theorem accessTarget_none_iff (off : Offset) (z : AccessSize) :
    accessTarget off z = none ↔ (z ≠ .b8 ∨ off.toNat % 8 ≠ 0 ∨ 0x208 < off.toNat) := by
  rw [accessTarget]
  cases z <;> simp
  split
  · simp; omega
  · split <;> simp <;> omega

/-- What a defined access reaches, read back. -/
theorem accessTarget_some {off : Offset} {z : AccessSize} {t : Target} (h : accessTarget off z = some t) :
    z = .b8 ∧ off.toNat % 8 = 0 ∧
    ((∃ i j, t = .limb i j ∧ off.toNat < 0x200) ∨ (t = .cmd ∧ off = 0x200) ∨ (t = .status ∧ off = 0x208)) := by
  rw [accessTarget] at h
  split at h
  · cases h
  · rename_i hn
    have hz : z = .b8 := by by_contra hz; exact hn (.inl hz)
    refine ⟨hz, by omega, ?_⟩
    split at h
    · cases h; exact .inl ⟨_, _, rfl, ‹_›⟩
    · split at h
      · cases h; exact .inr (.inl ⟨rfl, BitVec.eq_of_toNat_eq ‹_›⟩)
      · cases h; exact .inr (.inr ⟨rfl, BitVec.eq_of_toNat_eq (by show _ = 0x208; omega)⟩)

theorem limbOffset_toNat (i : RegId) (j : LimbId) : (limbOffset i j).toNat = 0x20 * i.val + 8 * j.val := by
  rw [limbOffset, BitVec.toNat_ofNat]; omega

theorem accessTarget_of_toNat {off : Offset} {i : RegId} {j : LimbId} (h : off.toNat = 0x20 * i.val + 8 * j.val) :
    accessTarget off .b8 = some (.limb i j) := by
  rw [BitVec.eq_of_toNat_eq (h.trans (limbOffset_toNat i j).symm), limbOffset, accessTarget_limb]

/-- A host write never touches C, CMP or ERR (R108) and takes no event. -/
theorem hostWrite_keeps (s : State) (off : Offset) (z : AccessSize) (v : Word) :
    (s.hostWrite off z v).c = s.c ∧ (s.hostWrite off z v).cmp = s.cmp ∧ (s.hostWrite off z v).err = s.err ∧
    (s.hostWrite off z v).events = s.events := by
  rw [State.hostWrite]
  split
  · exact ⟨rfl, rfl, rfl, rfl⟩
  · rename_i t _
    cases t <;> simp only [State.writeTarget] <;> (try split) <;> exact ⟨rfl, rfl, rfl, rfl⟩

end Sys2Proof.Machine
end

