-- ==== Sys2Proof/Tests/Slice0.lean ====
section
/-! SUPPORT. Tests of single steps, and a witness for the hypotheses of every obligation. Every expected value is the
spec's: the examples of the command rules and the tables of 95_test_vectors.md (E, V), named beside each test. -/

namespace Sys2Proof.Tests

open Sys2Proof Sys2Proof.Machine

set_option Elab.async false

/-! ### Helpers -/

/-- The start state of the vectors: x[1] = a, x[2] = b, x[4] = m, every other register 0xDEAD, STATUS = 0. -/
def start (a b m : Value) : State :=
  ({ State.reset with regs := Vector.replicate 16 (writtenLimbs 0xDEAD) }.setX 1 a |>.setX 2 b).setX 4 m

/-- The placeholder of the vectors. -/
def dead : Value := 0xDEAD

/-- What one step leaves in r3, r4 and STATUS when it completes the word. -/
def after (w : Nat) (s : State) : Option (Value × Value × Word) :=
  match step (s.withFetchWord 32 w) with
  | .next t => some (t.x 3, t.x 4, t.statusWord)
  | .fault _ | .refused _ => none

/-- The state after one event. -/
def host (e : Event) (s : State) : Option State :=
  match step { s with events := [e] } with
  | .next t => some t
  | .fault _ | .refused _ => none

/-- The value a host read at `off` with `size` returns, and STATUS after it. -/
def readAt (off : Offset) (size : AccessSize) (s : State) : Option (Option Word × Word) :=
  (host (.hostRead off size) s).map fun t => (t.readLog.head?, t.statusWord)

/-- One limb and STATUS after a host write. -/
def writeAt (off : Offset) (size : AccessSize) (v : Word) (i : RegId) (j : LimbId) (s : State) : Option (Word × Word) :=
  (host (.hostWrite off size v) s).map fun t => (t.limbValue i j, t.statusWord)

/-! ### WellFormed: the one check, refused where it is broken (R311) -/

theorem test_wf_refuses_mulw_same : Instr.wf (.mulw 3 1 2 3) = false := by decide
theorem test_wf_refuses_divmod_same : Instr.wf (.divmod 3 1 2 3) = false := by decide
theorem test_wf_accepts_two_destinations : Instr.wf (.mulw 3 1 2 4) = true ∧ Instr.wf (.divmod 3 3 3 4) = true := by decide
theorem test_wf_accepts_modulus_in_rd : Instr.wf (.expmodU 4 1 2 4) = true := by decide

/-! ### Decoding: every constructor by a word of the spec -/

theorem test_decode_add_sub :
    decode 0x00021301 = .ok (.addU 3 1 2) ∧ decode 0x00021341 = .ok (.addS 3 1 2) ∧
    decode 0x00021302 = .ok (.subU 3 1 2) ∧ decode 0x00013742 = .ok (.subS 7 3 1) := by decide +kernel

theorem test_decode_multiply :
    decode 0x00052703 = .ok (.mulU 7 2 5) ∧ decode 0x00021343 = .ok (.mulS 3 1 2) ∧
    decode 0x00925810 = .ok (.mulw 8 5 2 9) := by decide +kernel

theorem test_decode_divide :
    decode 0x00054604 = .ok (.divU 6 4 5) ∧ decode 0x00031444 = .ok (.divS 4 1 3) ∧
    decode 0x00734611 = .ok (.divmod 6 4 3 7) := by decide +kernel

theorem test_decode_modular :
    decode 0x00321405 = .ok (.addmodU 4 1 2 3) ∧ decode 0x00421345 = .ok (.addmodS 3 1 2 4) ∧
    decode 0x00421346 = .ok (.submodS 3 1 2 4) ∧ decode 0x00211307 = .ok (.mulmodU 3 1 1 2) ∧
    decode 0x00321447 = .ok (.mulmodS 4 1 2 3) := by decide +kernel

theorem test_decode_exponent :
    decode 0x00021308 = .ok (.expU 3 1 2) ∧ decode 0x00021348 = .ok (.expS 3 1 2) ∧
    decode 0x00421409 = .ok (.expmodU 4 1 2 4) ∧ decode 0x00321449 = .ok (.expmodS 4 1 2 3) := by decide +kernel

theorem test_decode_shift :
    decode 0x0002110A = .ok (.shlU 1 1 2) ∧ decode 0x0002134A = .ok (.shlS 3 1 2) ∧
    decode 0x0002130B = .ok (.shrU 3 1 2) ∧ decode 0x0005164B = .ok (.shrS 6 1 5) := by decide +kernel

theorem test_decode_compare_load :
    decode 0x0001700C = .ok (.cmpU 7 1) ∧ decode 0x0003604C = .ok (.cmpS 6 3) ∧
    decode 0x01F10320 = .ok (.ldiU 3 497) ∧ decode 0x80000360 = .ok (.ldiS 3 0x8000) := by decide +kernel

/-- One word of each format field by field, from the diagrams of R302 to R304: every field a different number. -/
theorem test_decode_fields :
    decode ((0b00000000#8 ++ 0b0000#4 ++ 0b1010#4 ++ 0b0101#4 ++ 0b1111#4 ++ 0b0#1 ++ 0b1#1 ++ 0b000100#6 : BitVec 32).setWidth 64)
      = .ok (.divS 15 5 10) ∧
    decode ((0b00000000#8 ++ 0b1001#4 ++ 0b1010#4 ++ 0b0101#4 ++ 0b1111#4 ++ 0b0#1 ++ 0b0#1 ++ 0b010000#6 : BitVec 32).setWidth 64)
      = .ok (.mulw 15 5 10 9) ∧
    decode ((0b00000000#8 ++ 0b0000#4 ++ 0b1010#4 ++ 0b0101#4 ++ 0b0000#4 ++ 0b0#1 ++ 0b0#1 ++ 0b001100#6 : BitVec 32).setWidth 64)
      = .ok (.cmpU 5 10) ∧
    decode ((0b1000000000000001#16 ++ 0b0000#4 ++ 0b0110#4 ++ 0b0#1 ++ 0b1#1 ++ 0b100000#6 : BitVec 32).setWidth 64)
      = .ok (.ldiS 6 0x8001) := by decide +kernel

/-- V8: the illegal words, by opcode, reserved bit and reserved field. -/
theorem test_decode_illegal_rows :
    decode 0x00000000 = .error .noRow ∧ decode 0x0000000D = .error .noRow ∧ decode 0x0000003F = .error .noRow ∧
    decode 0x00021381 = .error .noRow ∧ decode 0x00421301 = .error .noRow ∧ decode 0x01021301 = .error .noRow ∧
    decode 0x0002110C = .error .noRow ∧ decode 0x0042100C = .error .noRow ∧ decode 0xFFFF1120 = .error .noRow ∧
    decode 0x00321406 = .error .noRow ∧ decode 0x00421350 = .error .noRow ∧ decode 0x00421351 = .error .noRow := by
  decide +kernel

/-- V8 and V3: equal destinations, and a nonzero upper half. -/
theorem test_decode_illegal_fields :
    decode 0x00331310 = .error .sameDestination ∧ decode 0x00321311 = .error .sameDestination ∧
    decode 0x0000000100021301 = .error .upperHalf := by decide +kernel

/-- The opcodes beside the table's gaps (R305): 0x0C and 0x10 to 0x11 and 0x20 are assigned, their neighbours are not. -/
theorem test_decode_gaps :
    decode 0x0F = .error .noRow ∧ decode 0x12 = .error .noRow ∧ decode 0x1F = .error .noRow ∧
    decode 0x21 = .error .noRow ∧ decode 0x20 = .ok (.ldiU 0 0) ∧ decode 0x0C = .ok (.cmpU 0 0) := by decide +kernel

theorem test_table_word : decodeTableWord 32 0x00021301 = some (.addU 3 1 2) ∧ decodeTableWord 32 0 = none := by decide +kernel

/-- The words the spec writes are the encoder's. -/
theorem test_encode :
    encode (.mulw 8 5 2 9) = 0x00925810 ∧ encode (.divmod 6 4 3 7) = 0x00734611 ∧ encode (.cmpS 6 3) = 0x0003604C ∧
    encode (.ldiU 3 497) = 0x01F10320 ∧ encode (.subS 7 3 1) = 0x00013742 := by decide +kernel

/-! ### ADD and SUB (V1) -/

theorem test_add_u_wraps : after 0x00021301 (start maxUnsigned 1 dead) = some (0, dead, 0x2) := by decide +kernel
theorem test_add_u_carries_into_limb : after 0x00021301 (start 0xFFFFFFFFFFFFFFFF 1 dead) = some (0x10000000000000000, dead, 0) := by
  decide +kernel
theorem test_add_s_no_overflow_flag : after 0x00021341 (start maxSigned 1 dead) = some (minSigned, dead, 0) := by decide +kernel
theorem test_add_s_carry : after 0x00021341 (start minSigned minSigned dead) = some (0, dead, 0x2) := by decide +kernel
theorem test_sub_u_borrows : after 0x00021302 (start 0 1 dead) = some (maxUnsigned, dead, 0x2) := by decide +kernel
theorem test_sub_u_borrows_from_limb : after 0x00021302 (start 0x10000000000000000 1 dead) = some (0xFFFFFFFFFFFFFFFF, dead, 0) := by
  decide +kernel
theorem test_sub_s_min : after 0x00021342 (start minSigned 1 dead) = some (maxSigned, dead, 0) := by decide +kernel
theorem test_sub_s_negates_min : after 0x00021342 (start 0 minSigned dead) = some (minSigned, dead, 0x2) := by decide +kernel

/-! ### MUL and MULW (V2) -/

theorem test_mul_u_low_half : after 0x00021303 (start maxUnsigned maxUnsigned dead) = some (1, dead, 0) := by decide +kernel
theorem test_mul_u_crosses_limbs :
    after 0x00021303 (start 0xFFFFFFFFFFFFFFFF 0xFFFFFFFFFFFFFFFF dead) = some (0xFFFFFFFFFFFFFFFE0000000000000001, dead, 0) := by
  decide +kernel
theorem test_mul_s_signs : after 0x00021343 (start (enc (-3)) 5 dead) = some (enc (-15), dead, 0) := by decide +kernel
theorem test_mul_s_wraps : after 0x00021343 (start maxUnsigned minSigned dead) = some (minSigned, dead, 0) := by decide +kernel
theorem test_mulw_both_halves : after 0x00421310 (start maxUnsigned maxUnsigned dead) = some (1, enc (-2), 0) := by decide +kernel
theorem test_mulw_same_destination : after 0x00321310 (start 2 3 dead) = some (dead, dead, 0x110) := by decide +kernel

/-! ### DIV and DIVMOD (V3) -/

theorem test_div_u_quotient :
    after 0x00021304 (start (BitVec.twoPow 256 200) 0x10000000000000001 dead) =
      some (0x000000000000000000000000000000FFFFFFFFFFFFFFFF0000000000000000FF, dead, 0) := by decide +kernel
theorem test_div_u_by_zero : after 0x00021304 (start 5 0 dead) = some (dead, dead, 0x120) := by decide +kernel
theorem test_div_s_truncates : after 0x00021344 (start (enc (-7)) 2 dead) = some (enc (-3), dead, 0) := by decide +kernel
theorem test_div_s_min_by_minus_one : after 0x00021344 (start minSigned maxUnsigned dead) = some (minSigned, dead, 0) := by
  decide +kernel
theorem test_divmod_both : after 0x00421311 (start 100 7 dead) = some (14, 2, 0) := by decide +kernel
theorem test_divmod_illegal_before_zero : after 0x00321311 (start 6 0 dead) = some (dead, dead, 0x110) := by decide +kernel

/-! ### ADDMOD, SUBMOD, MULMOD (V4) -/

theorem test_addmod_u_unwrapped_sum : after 0x00421305 (start maxUnsigned maxUnsigned 7) = some (2, 7, 0) := by decide +kernel
theorem test_addmod_u_zero_modulus : after 0x00421305 (start 3 4 0) = some (dead, 0, 0x130) := by decide +kernel
theorem test_addmod_s_keeps_sign : after 0x00421345 (start (enc (-5)) 1 (enc (-3))) = some (maxUnsigned, enc (-3), 0) := by
  decide +kernel
theorem test_addmod_s_exact_sum : after 0x00421345 (start minSigned minSigned 3) = some (maxUnsigned, 3, 0) := by decide +kernel
theorem test_submod_s_negative_modulus : after 0x00421346 (start 1 (enc (-5)) (enc (-4))) = some (2, enc (-4), 0) := by
  decide +kernel
theorem test_submod_s_exact_difference : after 0x00421346 (start minSigned maxSigned 5) = some (0, 5, 0) := by decide +kernel
theorem test_mulmod_u_wide_product : after 0x00421307 (start maxUnsigned maxUnsigned 3) = some (0, 3, 0) := by decide +kernel
theorem test_mulmod_u_scenario_4 : after 0x00421307 (start 10 10 7) = some (2, 7, 0) := by decide +kernel
theorem test_mulmod_s_keeps_sign : after 0x00421347 (start (enc (-3)) 5 7) = some (maxUnsigned, 7, 0) := by decide +kernel
theorem test_mulmod_s_min : after 0x00421347 (start minSigned maxUnsigned maxSigned) = some (1, maxSigned, 0) := by decide +kernel

/-! ### EXP and EXPMOD (V5) -/

theorem test_exp_u_zero_to_zero : after 0x00021308 (start 0 0 dead) = some (1, dead, 0) := by decide +kernel
theorem test_exp_u_ten_to_77 :
    after 0x00021308 (start 10 77 dead) =
      some (0xDD15FE86AFFAD91249EF0EB713F39EBEAA987B6E6FD2A0000000000000000000, dead, 0) := by decide +kernel
theorem test_exp_s_min : after 0x00021348 (start (enc (-2)) 255 dead) = some (minSigned, dead, 0) := by decide +kernel
theorem test_exp_s_negative_exponent : after 0x00021348 (start 2 maxUnsigned dead) = some (dead, dead, 0x140) := by decide +kernel
theorem test_expmod_u_residue : after 0x00421309 (start 4 13 497) = some (445, 497, 0) := by decide +kernel
theorem test_expmod_u_one_modulus : after 0x00421309 (start 7 0 1) = some (0, 1, 0) := by decide +kernel
theorem test_expmod_s_keeps_sign : after 0x00421349 (start (enc (-2)) 3 (enc (-5))) = some (enc (-3), enc (-5), 0) := by
  decide +kernel
theorem test_expmod_s_mod_zero_first : after 0x00421349 (start 3 maxUnsigned 0) = some (dead, 0, 0x130) := by decide +kernel

/-! ### SHL and SHR (V6) -/

theorem test_shl_u_across_limbs :
    after 0x0002130A (start 0x123456789ABCDEF 100 dead) =
      some (0x000000000000000000000000123456789ABCDEF0000000000000000000000000, dead, 0) := by decide +kernel
theorem test_shl_u_ignores_high_bits : after 0x0002130A (start maxUnsigned 0x100000000 dead) = some (maxUnsigned, dead, 0) := by
  decide +kernel
theorem test_shl_s_sign_change : after 0x0002134A (start maxSigned 1 dead) = some (enc (-2), dead, 0) := by decide +kernel
theorem test_shl_s_negative : after 0x0002134A (start 1 maxUnsigned dead) = some (dead, dead, 0x150) := by decide +kernel
theorem test_shr_u_whole_limbs : after 0x0002130B (start maxUnsigned 192 dead) = some (0xFFFFFFFFFFFFFFFF, dead, 0) := by
  decide +kernel
theorem test_shr_u_256 : after 0x0002130B (start maxUnsigned 256 dead) = some (0, dead, 0) := by decide +kernel
theorem test_shr_s_floors : after 0x0002134B (start (enc (-3)) 1 dead) = some (enc (-2), dead, 0) := by decide +kernel
theorem test_shr_s_256_keeps_sign : after 0x0002134B (start minSigned 256 dead) = some (maxUnsigned, dead, 0) := by decide +kernel

/-! ### CMP and LDI (V7) -/

theorem test_cmp_u_from_the_top : after 0x0002100C (start 0x10000000000000000 0xFFFFFFFFFFFFFFFF dead) = some (dead, dead, 0x8) := by
  decide +kernel
theorem test_cmp_u_sign_blind : after 0x0002100C (start minSigned maxSigned dead) = some (dead, dead, 0x8) := by decide +kernel
theorem test_cmp_s_sign : after 0x0002104C (start minSigned maxSigned dead) = some (dead, dead, 0x4) := by decide +kernel
theorem test_cmp_s_negatives : after 0x0002104C (start maxUnsigned (enc (-2)) dead) = some (dead, dead, 0x8) := by decide +kernel
theorem test_ldi_u_zero_extends : after 0xFFFF0320 (start 0 0 dead) = some (65535, dead, 0) := by decide +kernel
theorem test_ldi_s_sign_extends : after 0x80000360 (start 0 0 dead) = some (enc (-32768), dead, 0) := by decide +kernel
theorem test_ldi_s_positive : after 0x7FFF0360 (start 0 0 dead) = some (32767, dead, 0) := by decide +kernel

/-! ### Flags and outcomes (V8, V10) -/

/-- V10 row 7: a failing command keeps C = 1 and CMP = GT and sets ERR and ESTICKY. -/
theorem test_error_keeps_flags :
    after 0x0004130A { start 5 0 maxUnsigned with c := true, cmp := 0b10 } = some (dead, maxUnsigned, 0x15A) := by decide +kernel

/-- V10 row 8: the next command that succeeds writes ERR = NONE and keeps ESTICKY, C and CMP. -/
theorem test_success_keeps_esticky :
    after 0x00030420 { start 5 0 maxUnsigned with c := true, cmp := 0b10, err := 5, esticky := true } =
      some (dead, 3, 0x10A) := by decide +kernel

/-- V8's last row: right after reset an illegal word gives STATUS = 0x110. -/
theorem test_illegal_from_reset : (after 0x00021381 State.reset).map (·.2.2) = some 0x110 := by decide +kernel

/-- Reset STATUS reads 0 (R900), and reset uses nothing unwritten. -/
theorem test_reset_status : State.reset.statusWord = 0 ∧ State.reset.usesUnwritten = false := by decide +kernel

/-- ADD of two registers that nothing has written is what R103 calls a use of an unspecified value; LDI is not. -/
theorem test_uses_unwritten :
    (State.reset.withFetchWord 32 0x00021301).usesUnwritten = true ∧
    (State.reset.withFetchWord 32 0x00010120).usesUnwritten = false ∧
    ((start 1 2 3).withFetchWord 32 0x00421305).usesUnwritten = false := by decide +kernel

/-! ### The host window (V9) -/

/-- The state of V9 before row 1: r2 written as 0xDEAD after reset. -/
def v9 : State := State.reset.setX 2 dead

/-- V9 rows 13 to 16: the same with `ldi.u r2, 0` in flight. -/
def v9busy : State := { v9 with inflight := some 0x220 }

theorem test_v9_limb_write : writeAt 0x040 .b8 0x0102030405060708 2 0 v9 = some (0x0102030405060708, 0) := by decide +kernel
theorem test_v9_other_limb_kept : writeAt 0x048 .b8 7 2 0 v9 = some (0xDEAD, 0) := by decide +kernel
theorem test_v9_limb_read : readAt 0x040 .b8 v9 = some (some 0xDEAD, 0) := by decide +kernel
theorem test_v9_unaligned_read : readAt 0x044 .b8 v9 = some (some 0, 0x400) := by decide +kernel
theorem test_v9_narrow_write : writeAt 0x040 .b4 0xFFFFFFFF 2 0 v9 = some (0xDEAD, 0x400) := by decide +kernel
theorem test_v9_reserved_read : readAt 0x210 .b8 v9 = some (some 0, 0x400) := by decide +kernel
theorem test_v9_cmd_read : readAt 0x200 .b8 v9 = some (some 0, 0) := by decide +kernel
theorem test_v9_byte_read : readAt 0x208 .b1 v9 = some (some 0, 0x400) := by decide +kernel
theorem test_v9_status_clear : writeAt 0x208 .b8 0x300 2 0 { v9 with berr := true } = some (0xDEAD, 0x400) ∧
    writeAt 0x208 .b8 0x7FF 2 0 { v9 with berr := true } = some (0xDEAD, 0) := by decide +kernel
theorem test_v9_issue : (host (.hostWrite 0x200 .b8 0x220) v9) = some v9busy := by decide +kernel
theorem test_v9_busy_cmd_write : (host (.hostWrite 0x200 .b8 0x10320) v9busy) = some { v9busy with ovr := true } := by
  decide +kernel
theorem test_v9_busy_limb_write : (host (.hostWrite 0x040 .b8 0x55) v9busy) = some { v9busy with ovr := true } := by
  decide +kernel

/-- V9 row 16: the read returns a free value. -/
theorem test_v9_busy_read :
    (host (.hostRead 0x040 .b8) v9busy) = some { v9busy with readLog := [Config.busyRead 0], freeCount := 1 } := rfl

/-- V9 row 17: the completion writes r2 and leaves OVR. -/
theorem test_v9_complete :
    (host .complete { v9busy with ovr := true }).map (fun t => (t.x 2, t.statusWord)) = some (0, 0x200) := by decide +kernel

/-- V10 row 9: reset. -/
theorem test_reset_event :
    host .reset { v9busy with c := true, err := 5, esticky := true } = some State.reset := by decide +kernel

theorem test_byte_order : wordByte 0x0102030405060708 0 = 0x08 ∧ wordByte 0x0102030405060708 7 = 0x01 := by decide

/-! ### The host's side (E3, E11, R320) -/

theorem test_from_arbitrary :
    toLimbs (fromArbitraryPrecision (2 ^ 256 + 5)) = [5, 0, 0, 0] ∧ fromArbitraryPrecision (-1) = maxUnsigned ∧
    fromArbitraryPrecision (-2 ^ 255) = minSigned := by decide +kernel

theorem test_native :
    fromNativeSigned (0xFFFFFFFFFFFFFFFE#64) = enc (-2) ∧ fromNativeUnsigned (0xFFFFFFFFFFFFFFFE#64) = 0xFFFFFFFFFFFFFFFE := by
  decide +kernel

theorem test_decimal_445 : toDecimalUnsigned 445 = "445" ∧ toDecimalSigned 0 = "0" ∧ toDecimalSigned maxUnsigned = "-1" := by
  decide +kernel

theorem test_decimal_longest :
    toDecimalUnsigned maxUnsigned = "115792089237316195423570985008687907853269984665640564039457584007913129639935" ∧
    toDecimalSigned minSigned = "-57896044618658097711785492504343953926634992332820282019728792003956564819968" := by
  decide +kernel

theorem test_assembler :
    asm (.addU 3 1 2) = "add.u r3, r1, r2" ∧ asm (.mulw 3 1 2 4) = "mulw r3, r4, r1, r2" ∧
    asm (.divmod 5 1 2 6) = "divmod r5, r6, r1, r2" ∧ asm (.ldiS 3 0xFFFF) = "ldi.s r3, -1" ∧
    asmLdiU 1 65536 = none ∧ asmLdiS 3 (-32768) = some (.ldiS 3 0x8000) := by decide +kernel

/-! ### Witnesses: states and operands that meet the hypotheses of each obligation, clause by clause

`witness_<Obligation>` is about `Obligations.<Obligation>`. A statement without hypotheses has none. -/

def isNext (r : Result) : Bool :=
  match r with
  | .next _ => true
  | .fault _ | .refused _ => false

/-- The word in flight, its completion next. -/
def inFlight (w : Word) (s : State) : State := { s with inflight := some w, events := [.complete] }

/-- STATUS values the machine never produces. -/
def badCmp : State := { State.reset with cmp := 0b11 }
def badErr : State := { State.reset with err := 6 }

theorem v9_inv (es : List Event) (f : Option Word) : ({ v9 with events := es, inflight := f } : State).Inv :=
  ⟨by simp [v9, State.setX, State.reset], by simp [v9, State.setX, State.reset]⟩

theorem witness_ResetHoldsTheStatedState :
    ({ v9busy with events := [.reset] } : State).Inv ∧
    (∀ es, v9.events ≠ .reset :: es) ∧ isNext (step v9) = true ∧ (v9.limbAt 2 0).written = true :=
  ⟨v9_inv _ _, by simp [v9, State.setX, State.reset], by decide, by decide⟩

theorem witness_StepKeepsTheStatusInvariant :
    ({ v9 with events := [.complete], inflight := some 0x0000200C } : State).Inv ∧
    isNext (step (inFlight 0x0002100C (start 5 0 dead))) = true := ⟨v9_inv _ _, by decide +kernel⟩

theorem witness_StepAnswersNextExactlyOnTheInvariant :
    State.reset.Inv ∧ ¬ badCmp.Inv ∧ ¬ badErr.Inv ∧ ({ State.reset with err := 5, cmp := 0b10 } : State).Inv := by
  refine ⟨⟨by decide, by decide⟩, fun h => h.1 rfl, fun h => ?_, ⟨by decide, by decide⟩⟩
  exact absurd h.2 (by decide)

theorem witness_StepRunsTheDecodedCommand :
    ({ v9 with events := [.complete], inflight := some 0x220 } : State).Inv ∧ decode 0x220 = .ok (.ldiU 2 0) ∧
    ({ v9 with events := [], inflight := some 0x220 } : State).Inv ∧
    decodeTableWord 32 0x220 = some (.ldiU 2 0) := ⟨v9_inv _ _, by decide +kernel, v9_inv _ _, by decide +kernel⟩

/-- The two directions, and a word that fits one row. -/
theorem witness_DecodeFollowsTheTable :
    decode 0x00021301 = .ok (.addU 3 1 2) ∧ decode 0x00421409 = .ok (.expmodU 4 1 2 4) ∧
    (0x00021301 : BitVec 32) &&& opcodeTable[0].format.mask = opcodeTable[0].pattern ∧
    (0x80000360 : BitVec 32) &&& opcodeTable[26].format.mask = opcodeTable[26].pattern := by decide +kernel

/-- One word for each bullet of R311: opcodes, bit 7, the four reserved fields, s, rd = rm, the upper half. -/
theorem witness_IllegalWordsAreTheListedOnes :
    decode 0x0F = .error .noRow ∧ decode 0x00021381 = .error .noRow ∧ decode 0x01021301 = .error .noRow ∧
    decode 0x00421301 = .error .noRow ∧ decode 0x0002110C = .error .noRow ∧ decode 0xFFFF1120 = .error .noRow ∧
    decode 0x00321406 = .error .noRow ∧ decode 0x00421351 = .error .noRow ∧
    decode 0x00331310 = .error .sameDestination ∧ decode 0x8000000000021301 = .error .upperHalf := by decide +kernel

theorem witness_DecodeOfEncodeIsTheCommand :
    Instr.wf (.divmod 15 0 0 14) = true ∧ Instr.wf (.ldiS 0 0xFFFF) = true ∧ Instr.wf (.cmpU 15 15) = true := by decide

theorem witness_DecodedWordIsItsEncoding :
    decode 0xFFFF0F60 = .ok (.ldiS 15 0xFFFF) ∧ decode 0x00FFFF05 = .ok (.addmodU 15 15 15 15) := by decide +kernel

/-- A completion with an error and one without. -/
def errAfter (w : Word) (s : State) : Option (BitVec 4) :=
  match completeWord w s with
  | .next t => some t.err
  | .fault _ | .refused _ => none

theorem witness_RaiseWritesOnlyTheOutcome :
    errAfter 0x00021304 (start 5 0 dead) = some 2 ∧ errAfter 0x00021304 (start 5 1 dead) = some 0 := by decide +kernel

/-- Each of the six codes, at the edge of its cause: exponents 2^255 and 2^255 − 1, shift amounts 2^31 and 2^31 − 1. -/
theorem witness_OutcomeCodesHaveTheirCauses :
    errAfter 0x00021381 State.reset = some 1 ∧ errAfter 0x00021344 (start 5 0 dead) = some 2 ∧
    errAfter 0x00421307 (start 5 5 0) = some 3 ∧ errAfter 0x00021348 (start 2 minSigned dead) = some 4 ∧
    errAfter 0x0002130B (start 1 0x80000000 dead) = some 5 ∧ errAfter 0x0002130B (start 1 0x7FFFFFFF dead) = some 0 ∧
    errAfter 0x00421349 (start 3 maxUnsigned 0) = some 3 := by decide +kernel

theorem witness_exponent_at_the_edge : errAfter 0x00021348 (start 1 maxSigned dead) = some 0 := by decide +kernel

/-- ADD changes C, CMP changes CMP. -/
theorem witness_EveryCommandKeepsTheRest :
    isNext (exec (.addU 3 1 2) (start maxUnsigned 1 dead)) = true ∧
    after 0x00021301 (start maxUnsigned 1 dead) = some (0, dead, 0x2) ∧
    after 0x0002100C (start 5 0 dead) = some (dead, dead, 0x8) := by decide +kernel

theorem witness_SubUndoesAddWithTheSameCarry : (3 : RegId) ≠ 2 ∧ (1 : RegId) ≠ 2 := by decide

theorem witness_MulwWritesBothHalves : (3 : RegId) = 3 ∧ (3 : RegId) ≠ 4 := by decide

theorem witness_DivUWritesQuotientOrRaises :
    uval ((start 5 0 dead).x 2) = 0 ∧ uval ((start 100 1 dead).x 2) ≠ 0 := by decide +kernel

theorem witness_DivmodWritesQuotientAndRemainder :
    (3 : RegId) ≠ 4 ∧ uval ((start 6 0 dead).x 2) = 0 ∧ uval ((start 6 1 dead).x 2) ≠ 0 := by decide +kernel

theorem witness_DivSTruncatesTowardZeroOrRaises :
    sval ((start 5 0 dead).x 2) = 0 ∧ sval ((start minSigned maxUnsigned dead).x 2) ≠ 0 ∧
    sval ((start minSigned maxUnsigned dead).x 1) = -2 ^ 255 ∧ sval ((start minSigned maxUnsigned dead).x 2) = -1 := by
  decide +kernel

theorem witness_RestoringDividerIsExact : (1 : Value) ≠ 0 ∧ divModReference (100#8) 7 = (14, 2) := by decide +kernel

theorem witness_DivmodMulAddReconstructTheDividend :
    (5 : RegId) ≠ 6 ∧ (2 : RegId) ≠ 5 ∧ (2 : RegId) ≠ 6 ∧ (7 : RegId) ≠ 6 ∧ uval ((start 100 7 dead).x 2) ≠ 0 := by
  decide +kernel

/-- Moduli 0 and 1, for the unsigned modular commands. -/
theorem witness_AddmodUReducesTheExactSum :
    uval ((start 3 4 0).x 4) = 0 ∧ uval ((start 3 4 1).x 4) ≠ 0 := by decide +kernel
theorem witness_MulmodUReducesTheExactProduct :
    uval ((start 5 5 0).x 4) = 0 ∧ uval ((start 5 5 1).x 4) ≠ 0 := by decide +kernel

/-- Moduli 0, 1 and Min, for the signed ones. -/
theorem witness_AddmodSKeepsTheSignOfTheSum :
    sval ((start 3 4 0).x 4) = 0 ∧ sval ((start 3 4 1).x 4) ≠ 0 ∧ sval ((start 3 4 minSigned).x 4) ≠ 0 := by decide +kernel
theorem witness_SubmodSKeepsTheSignOfTheDifference :
    sval ((start 3 3 0).x 4) = 0 ∧ sval ((start 3 3 (enc (-1))).x 4) ≠ 0 := by decide +kernel
theorem witness_MulmodSKeepsTheSignOfTheProduct :
    sval ((start 3 3 0).x 4) = 0 ∧ sval ((start minSigned minSigned minSigned).x 4) ≠ 0 := by decide +kernel

theorem witness_SignedAndUnsignedModularAgreeBelowTheSign :
    isNeg ((start maxSigned 13 497).x 1) = false ∧ isNeg ((start maxSigned 13 497).x 2) = false ∧
    isNeg ((start maxSigned 13 497).x 4) = false := by decide +kernel

theorem witness_ExpSWritesThePowerOrRaises :
    ((start 2 minSigned dead).x 2).getLsbD 255 = true ∧ ((start 2 maxSigned dead).x 2).getLsbD 255 = false := by decide +kernel

theorem witness_ExpmodUWritesTheResidue :
    uval ((start 2 3 0).x 4) = 0 ∧ uval ((start 7 0 1).x 4) ≠ 0 := by decide +kernel

theorem witness_ExpmodSKeepsTheSignOfThePower :
    sval ((start 3 maxUnsigned 0).x 4) = 0 ∧
    (sval ((start 3 minSigned 5).x 4) ≠ 0 ∧ ((start 3 minSigned 5).x 2).getLsbD 255 = true) ∧
    (sval ((start 3 maxSigned minSigned).x 4) ≠ 0 ∧ ((start 3 maxSigned minSigned).x 2).getLsbD 255 = false) := by
  decide +kernel

/-- Shift amounts −2^31, −1, 0, 255, 256 and 2^31 − 1: the edges of the clauses. -/
theorem witness_ShlShiftsLeftOrRaises :
    sint32 (((start 1 0x80000000 dead).x 2).extractLsb' 0 32) = -2 ^ 31 ∧
    sint32 (((start 1 maxUnsigned dead).x 2).extractLsb' 0 32) = -1 ∧
    sint32 (((start 1 0x100000000 dead).x 2).extractLsb' 0 32) = 0 ∧
    sint32 (((start 1 255 dead).x 2).extractLsb' 0 32) = 255 ∧
    sint32 (((start 1 256 dead).x 2).extractLsb' 0 32) = 256 ∧
    sint32 (((start 1 0x7FFFFFFF dead).x 2).extractLsb' 0 32) = 2 ^ 31 - 1 := by decide +kernel
theorem witness_ShrUShiftsRightOrRaises :
    sint32 (((start 1 (enc (-1)) dead).x 2).extractLsb' 0 32) < 0 ∧
    0 ≤ sint32 (((start 1 0 dead).x 2).extractLsb' 0 32) := by decide +kernel
theorem witness_ShrSFloorsOrRaises :
    sint32 (((start 1 (enc (-1)) dead).x 2).extractLsb' 0 32) < 0 ∧
    (0 ≤ sint32 (((start 1 255 dead).x 2).extractLsb' 0 32) ∧ sint32 (((start 1 255 dead).x 2).extractLsb' 0 32) < 256) ∧
    256 ≤ sint32 (((start 1 256 dead).x 2).extractLsb' 0 32) := by decide +kernel

theorem witness_ShiftsAreMulAndDivByPowersOfTwo :
    shiftAmount ((start 3 255 (enc (2 ^ 255))).x 2) = 255 ∧ (start 3 255 (enc (2 ^ 255))).x 4 = enc (2 ^ 255) := by
  decide +kernel

/-- Equal, less and greater, unsigned and signed, at the sign's edge. -/
theorem witness_CmpUWritesTheUnsignedOrder :
    uval ((start 5 5 dead).x 1) = uval ((start 5 5 dead).x 2) ∧
    uval ((start maxSigned minSigned dead).x 1) < uval ((start maxSigned minSigned dead).x 2) ∧
    uval ((start minSigned maxSigned dead).x 2) < uval ((start minSigned maxSigned dead).x 1) := by decide +kernel
theorem witness_CmpSWritesTheSignedOrder :
    sval ((start 5 5 dead).x 1) = sval ((start 5 5 dead).x 2) ∧
    sval ((start minSigned maxSigned dead).x 1) < sval ((start minSigned maxSigned dead).x 2) ∧
    sval ((start 0 maxUnsigned dead).x 2) < sval ((start 0 maxUnsigned dead).x 1) := by decide +kernel

/-- Accesses that are not defined: each size, an unaligned offset, the first reserved offset. -/
theorem witness_UndefinedAccessesOnlySetBerr :
    ({ v9 with events := [.hostWrite 0x040 .b4 1], inflight := none } : State).Inv ∧
    (AccessSize.b16 ≠ .b8) ∧ (0x044 : Offset).toNat % 8 ≠ 0 ∧ 0x208 < (0x210 : Offset).toNat := ⟨v9_inv _ _, by decide⟩

/-- The first and the last limb, at BUSY = 0 and at BUSY = 1. -/
theorem witness_LimbAccessReadsAndWritesOneLimb :
    (0x000 : Offset).toNat = 0x20 * (0 : RegId).val + 8 * (0 : LimbId).val ∧
    (0x1F8 : Offset).toNat = 0x20 * (15 : RegId).val + 8 * (3 : LimbId).val ∧
    ({ v9 with events := [.hostRead 0x1F8 .b8], inflight := none } : State).Inv ∧
    ({ v9 with events := [.hostWrite 0x1F8 .b8 7], inflight := some 0x220 } : State).Inv :=
  ⟨by decide, by decide, v9_inv _ _, v9_inv _ _⟩

theorem witness_RegisterBytesAreLittleEndian :
    ({ v9 with events := [.hostRead (limbOffset 15 3) .b8], inflight := none } : State).Inv ∧ (0 < 8 ∧ 7 < 8) :=
  ⟨v9_inv _ _, by decide⟩

theorem witness_CmdWriteIssuesOneCommand :
    ({ v9 with events := [.hostWrite 0x200 .b8 0x220], inflight := none } : State).Inv ∧
    ({ v9 with events := [.hostRead 0x200 .b8], inflight := some 0x220 } : State).Inv ∧
    (0x100000000 : Word).extractLsb' 32 32 ≠ 0 := ⟨v9_inv _ _, v9_inv _ _, by decide⟩

theorem witness_StatusReadReturnsItsFields :
    ({ v9 with events := [.hostRead 0x208 .b8], inflight := some 0x220 } : State).Inv := v9_inv _ _

theorem witness_StatusWriteClearsWrittenOnes :
    ({ v9 with events := [.hostWrite 0x208 .b8 0x700], inflight := some 0x220 } : State).Inv := v9_inv _ _

/-- Each of the two ways C, CMP and ERR change: a completion and the reset input. -/
theorem witness_FlagsChangeOnlyAtCompletion :
    isNext (step (inFlight 0x00021301 (start maxUnsigned 1 dead))) = true ∧
    after 0x00021301 (start maxUnsigned 1 dead) = some (0, dead, 0x2) ∧
    host .reset { v9 with c := true } = some State.reset := by decide +kernel

/-- Each sticky bit cleared by its write, and each one set by its cause. -/
theorem witness_StickyBitsAreSetAndClearedAsNamed :
    host (.hostWrite 0x208 .b8 0x700) { v9 with esticky := true, ovr := true, berr := true } = some v9 ∧
    (after 0x00000000 v9).map (·.2.2) = some 0x110 ∧
    host (.hostWrite 0x1F8 .b8 7) v9busy = some { v9busy with ovr := true } ∧
    host (.hostRead 0x3FF .b1) v9 = some { v9 with berr := true, readLog := [0] } := by decide +kernel

/-- Two states that differ in an unwritten limb only, and a step that does not use it. -/
theorem witness_UnwrittenLimbsDoNotMatter :
    (inFlight 0x00010120 State.reset).view =
      (inFlight 0x00010120 { State.reset with regs := Vector.replicate 16 (Vector.replicate 4 ⟨7, false⟩) }).view ∧
    (inFlight 0x00010120 State.reset).usesUnwritten = false ∧ isNext (step (inFlight 0x00010120 State.reset)) = true := by
  decide +kernel

theorem witness_EveryIssuedCommandCompletes :
    ({ v9 with events := [.hostRead 0x208 .b8], inflight := some 0x220 } : State).Inv ∧
    Event.reset ∉ [Event.hostRead 0x208 .b8] := ⟨v9_inv _ _, by decide⟩

theorem witness_RegistersChangeOnlyAsNamed :
    (host .reset v9).map (·.limbAt 2 0) = some Limb.unwritten ∧
    (host (.hostWrite 0x1F8 .b8 7) v9).map (·.limbAt 15 3) = some ⟨7, true⟩ ∧
    (host .complete v9busy).map (·.limbAt 2 0) = some ⟨0, true⟩ ∧ v9.limbAt 2 0 = ⟨0xDEAD, true⟩ := by decide +kernel

theorem witness_OneCommandIsInFlightAtATime :
    (host (.hostWrite 0x200 .b8 0x220) v9).map (·.inflight) = some (some 0x220) ∧
    (host (.hostWrite 0x200 .b8 7) v9busy).map (·.inflight) = some (some 0x220) ∧
    (host .complete v9busy).map (·.inflight) = some none := by decide +kernel

theorem witness_ConstantSequencesBuildMinAndMax : (1 : RegId) ≠ 2 := by decide

theorem witness_WritingFourLimbsWritesTheValue :
    ({ v9 with events := writeRegister 15 (fromArbitraryPrecision (-1)), inflight := none } : State).Inv := v9_inv _ _

/-- The ends of each type's range. -/
theorem witness_ConversionsRoundTrip :
    ((0 : Int) ≤ 2 ^ 256 - 1 ∧ (2 ^ 256 - 1 : Int) < 2 ^ 256) ∧ ((-2 ^ 255 : Int) ≤ -2 ^ 255 ∧ (2 ^ 255 - 1 : Int) < 2 ^ 255) := by
  decide +kernel

theorem witness_DecimalStringsReadBack :
    sval minSigned < 0 ∧ 0 ≤ sval maxSigned ∧ (toDecimalUnsigned 0).toList.head? = some '0' := by decide +kernel

theorem witness_ResetInputKeepsTheHostSide :
    ({ v9busy with events := [.reset, .hostRead 0x208 .b8] } : State).Inv := v9_inv _ _

end Sys2Proof.Tests
end

section
/-! PROOFS. 10_state: what one event of the host does to the machine, and the CMD register (R107). -/

namespace Sys2Proof.Machine

/-! ### One event -/

/-- From a state of the invariant a step is the first event, taken off the list (R908). -/
theorem step_of_event {s : State} {e : Event} {es : List Event} (hinv : s.Inv) (he : s.events = e :: es) :
    step s = runEvent e { s with events := es } := by
  rw [step_of_inv hinv, runNext, he]

theorem step_hostWrite {s : State} {off : Offset} {z : AccessSize} {v : Word} {es : List Event} (hinv : s.Inv)
    (he : s.events = .hostWrite off z v :: es) :
    step s = .next (State.hostWrite { s with events := es } off z v) :=
  step_of_event hinv he

theorem step_hostRead {s : State} {off : Offset} {z : AccessSize} {es : List Event} (hinv : s.Inv)
    (he : s.events = .hostRead off z :: es) :
    step s = .next (State.hostRead { s with events := es } off z) :=
  step_of_event hinv he

/-! ### The window, an access with a target -/

theorem hostWrite_of_target {off : Offset} {z : AccessSize} {t : Target} (h : accessTarget off z = some t) (s : State)
    (v : Word) : s.hostWrite off z v = s.writeTarget v t := by
  rw [State.hostWrite, h]

/-- A read of CMD or STATUS logs its word, takes no free value and changes nothing else (R107, R108). -/
theorem hostRead_of_target_ne_limb {off : Offset} {z : AccessSize} {t : Target} (h : accessTarget off z = some t)
    (ht : ∀ i j, t ≠ .limb i j) (s : State) :
    s.hostRead off z = { s with readLog := s.readTarget t :: s.readLog } := by
  cases t with
  | limb i j => exact absurd rfl (ht i j)
  | cmd => simp [State.hostRead, State.readValue, State.readTakesFree, h]
  | status => simp [State.hostRead, State.readValue, State.readTakesFree, h]

/-! ### BUSY and the CMD register (R105, R107) -/

theorem busy_eq_false_iff (s : State) : s.busy = false ↔ s.inflight = none := by
  simp [State.busy]

theorem busy_eq_true_iff (s : State) : s.busy = true ↔ s.inflight ≠ none := by
  simp [State.busy, Option.isSome_iff_ne_none]

theorem writeTarget_cmd_idle (s : State) (v : Word) (h : s.inflight = none) :
    s.writeTarget v .cmd = { s with inflight := some v } := by
  rw [State.writeTarget, (busy_eq_false_iff s).mpr h]; rfl

theorem writeTarget_cmd_busy (s : State) (v : Word) (h : s.inflight ≠ none) :
    s.writeTarget v .cmd = { s with ovr := true } := by
  rw [State.writeTarget, (busy_eq_true_iff s).mpr h]; rfl

/-- A CMD read logs 0 and leaves CORE as it was, whatever BUSY is. -/
theorem hostRead_cmd (s : State) : s.hostRead 0x200 .b8 = { s with readLog := 0 :: s.readLog } :=
  hostRead_of_target_ne_limb accessTarget_cmd nofun s

/-! ### A word that does not decode (R311) -/

theorem decode_of_upper_ne_zero {W : Word} (h : W.extractLsb' 32 32 ≠ 0) : decode W = .error .upperHalf := by
  rw [decode, if_pos h]

theorem completeWord_of_decode_error {W : Word} {e : IllegalWord} (h : decode W = .error e) (s : State) :
    completeWord W s = .next (s.raise .illegal) := by
  rw [completeWord, h]; rfl

/-- Settles O45: a CMD write is its event's step, split on BUSY; a CMD read is the same in both; a word with a nonzero
upper half does not decode, so it completes with the raise of ILLEGAL, whose code is 1. -/
theorem cmdWriteIssuesOneCommand : Obligations.CmdWriteIssuesOneCommand := by
  intro s v es hinv
  refine ⟨fun hidle he => ?_, fun hbusy he => ?_, fun he => ?_, fun hupper => ?_⟩
  · rw [step_hostWrite hinv he, hostWrite_of_target accessTarget_cmd,
      writeTarget_cmd_idle { s with events := es } v hidle]
  · rw [step_hostWrite hinv he, hostWrite_of_target accessTarget_cmd,
      writeTarget_cmd_busy { s with events := es } v hbusy]
  · rw [step_hostRead hinv he, hostRead_cmd]
  · exact ⟨_, completeWord_of_decode_error (decode_of_upper_ne_zero hupper) s, rfl⟩

end Sys2Proof.Machine
end

section
/-! PROOFS. 20_memory: the accesses that are not defined (R201), and the limb registers (R203). -/

namespace Sys2Proof.Machine

/-! ### The window, an access without a target (R201) -/

theorem hostWrite_of_no_target {off : Offset} {z : AccessSize} (h : accessTarget off z = none) (s : State) (v : Word) :
    s.hostWrite off z v = { s with berr := true } := by
  rw [State.hostWrite, h]

theorem hostRead_of_no_target {off : Offset} {z : AccessSize} (h : accessTarget off z = none) (s : State) :
    s.hostRead off z = { s with berr := true, readLog := 0 :: s.readLog } := by
  simp [State.hostRead, State.readValue, State.readTakesFree, h]

/-- Settles O42: such an access has no target, so its step is the write or the read that sets BERR. -/
theorem undefinedAccessesOnlySetBerr : Obligations.UndefinedAccessesOnlySetBerr := by
  intro s off size v es hinv hundefined
  have hnone : accessTarget off size = none := (accessTarget_none_iff off size).mpr hundefined
  refine ⟨fun he => ?_, fun he => ?_⟩
  · rw [step_hostWrite hinv he, hostWrite_of_no_target hnone]
  · rw [step_hostRead hinv he, hostRead_of_no_target hnone]

/-! ### The limb registers (R203) -/

theorem writeTarget_limb_idle (s : State) (v : Word) (i : RegId) (j : LimbId) (h : s.inflight = none) :
    s.writeTarget v (.limb i j) = s.setLimb i j v := by
  rw [State.writeTarget, (busy_eq_false_iff s).mpr h]; rfl

theorem writeTarget_limb_busy (s : State) (v : Word) (i : RegId) (j : LimbId) (h : s.inflight ≠ none) :
    s.writeTarget v (.limb i j) = { s with ovr := true } := by
  rw [State.writeTarget, (busy_eq_true_iff s).mpr h]; rfl

/-- At BUSY = 0 a limb read logs the limb and changes nothing else. -/
theorem hostRead_limb_idle {off : Offset} {z : AccessSize} {i : RegId} {j : LimbId}
    (ht : accessTarget off z = some (.limb i j)) (s : State) (h : s.inflight = none) :
    s.hostRead off z = { s with readLog := s.limbValue i j :: s.readLog } := by
  simp [State.hostRead, State.readValue, State.readTakesFree, State.readTarget, ht, (busy_eq_false_iff s).mpr h]

/-- At BUSY = 1 a limb read logs the next free value, whatever the limb holds (log 2). -/
theorem hostRead_limb_busy {off : Offset} {z : AccessSize} {i : RegId} {j : LimbId}
    (ht : accessTarget off z = some (.limb i j)) (s : State) (h : s.inflight ≠ none) :
    s.hostRead off z =
      { s with readLog := Config.busyRead s.freeCount :: s.readLog, freeCount := s.freeCount + 1 } := by
  simp [State.hostRead, State.readValue, State.readTakesFree, State.readTarget, ht, (busy_eq_true_iff s).mpr h]

theorem limbAt_setLimb_self (s : State) (i : RegId) (j : LimbId) (v : Word) :
    (s.setLimb i j v).limbAt i j = ⟨v, true⟩ := by
  rw [limbAt_setLimb, if_pos ⟨rfl, rfl⟩]

theorem limbAt_setLimb_ne (s : State) {i r : RegId} {j k : LimbId} (v : Word) (h : (r, k) ≠ (i, j)) :
    (s.setLimb i j v).limbAt r k = s.limbAt r k := by
  rw [limbAt_setLimb, if_neg (mt Prod.mk_inj.mpr h)]

/-- Settles O43: the offset's target is the limb; each of the two accesses, split on BUSY, is its rule above. -/
theorem limbAccessReadsAndWritesOneLimb : Obligations.LimbAccessReadsAndWritesOneLimb := by
  intro s i j off v es hinv hoff
  have ht : accessTarget off .b8 = some (.limb i j) := accessTarget_of_toNat hoff
  refine ⟨fun hidle he => ?_, fun hidle he => ?_, fun hbusy he => ?_, fun hbusy he => ?_⟩
  · rw [step_hostRead hinv he, hostRead_limb_idle ht { s with events := es } hidle]; rfl
  · refine ⟨State.setLimb { s with events := es } i j v, ?_, limbAt_setLimb_self .., fun i' j' hne => ?_, rfl⟩
    · rw [step_hostWrite hinv he, hostWrite_of_target ht, writeTarget_limb_idle { s with events := es } v i j hidle]
    · exact limbAt_setLimb_ne { s with events := es } v hne
  · refine ⟨Config.busyRead s.freeCount, s.freeCount + 1, ?_⟩
    rw [step_hostRead hinv he, hostRead_limb_busy ht { s with events := es } hbusy]
  · rw [step_hostWrite hinv he, hostWrite_of_target ht, writeTarget_limb_busy { s with events := es } v i j hbusy]

end Sys2Proof.Machine
end

section
/-! PROOFS. 30_encoding: which words decode to a command (R310), and which words are illegal (R311). -/

namespace Sys2Proof

/-! ### The decoder answers the command of a row that fits (R310) -/

theorem Row.fits_iff (r : Row) (w : BitVec 32) : r.fits w = true ↔ w &&& r.format.mask = r.pattern := decide_eq_true_iff

theorem find_of_mem {row : Row} {w : BitVec 32} (hrow : row ∈ opcodeTable) (hfit : row.fits w = true) :
    opcodeTable.find? (·.fits w) = some row := by
  obtain ⟨k, hk, rfl⟩ := List.getElem_of_mem hrow
  exact find_row w k hk hfit

theorem decode_eq_ok_iff (W : Word) (i : Instr) : decode W = .ok i ↔
    W.extractLsb' 32 32 = 0 ∧ ∃ row ∈ opcodeTable, row.fits (W.extractLsb' 0 32) = true ∧
      (row.build (fieldsOf (W.extractLsb' 0 32))).wf = true ∧ i = row.build (fieldsOf (W.extractLsb' 0 32)) := by
  constructor
  · intro h
    rw [decode] at h
    split at h
    · cases h
    next hupper =>
      dsimp only at h
      split at h
      · cases h
      next row hfind =>
        split at h
        next hwf =>
          cases h
          have hfit : row.fits (W.extractLsb' 0 32) = true := by simpa using List.find?_some hfind
          exact ⟨not_not.mp hupper, row, List.mem_of_find?_eq_some hfind, hfit, hwf, rfl⟩
        · cases h
  · rintro ⟨hupper, row, hrow, hfit, hwf, rfl⟩
    simp [decode, hupper, find_of_mem hrow hfit, hwf]

/-- A row's command is ill formed only where MULW or DIVMOD has its two destinations equal (R303). -/
theorem rows_build_wf_iff : ∀ row ∈ opcodeTable, ∀ f : Fields,
    (row.build f).wf = true ↔ (row.mnemonic ∈ ["mulw", "divmod"] → f.rd ≠ f.rm) := by
  simp [opcodeTable, arithmeticRows, modularRows, exponentRows, shiftRows, compareRows, twoDestRows, loadRows, Instr.wf]

theorem regField_inj (w : BitVec 32) (lo lo' : Nat) :
    regField w lo = regField w lo' ↔ w.extractLsb' lo 4 = w.extractLsb' lo' 4 := BitVec.toFin_inj

/-- A field of the lower half is that field of the 64-bit word. -/
theorem field_of_lower (W : Word) {lo n : Nat} (h : lo + n ≤ 32) :
    (W.extractLsb' 0 32).extractLsb' lo n = W.extractLsb' lo n :=
  BitVec.extractLsb'_extractLsb'_of_le h

/-- decode_eq_ok_iff with the mask in place of Row.fits, and the destination fields in place of Instr.wf. -/
theorem decode_eq_ok_iff_match (W : Word) (i : Instr) : decode W = .ok i ↔
    W.extractLsb' 32 32 = 0 ∧ ∃ row ∈ opcodeTable, W.extractLsb' 0 32 &&& row.format.mask = row.pattern ∧
      (row.mnemonic ∈ ["mulw", "divmod"] → W.extractLsb' 8 4 ≠ W.extractLsb' 20 4) ∧
      i = row.build (fieldsOf (W.extractLsb' 0 32)) := by
  rw [decode_eq_ok_iff]
  refine and_congr_right fun _ => exists_congr fun row => and_congr_right fun hrow => ?_
  rw [Row.fits_iff, rows_build_wf_iff row hrow, fieldsOf, Ne, regField_inj, field_of_lower W (by norm_num),
    field_of_lower W (by norm_num)]

/-- Settles O7: the decoder's `find?` and Instr.wf are the table's match and R303's rule, and rows differ in their low
byte. -/
theorem decodeFollowsTheTable : Obligations.DecodeFollowsTheTable :=
  ⟨decode_eq_ok_iff_match, fun w p q hp hq hfitp hfitq =>
    row_unique w p q hp hq ((Row.fits_iff _ w).mpr hfitp) ((Row.fits_iff _ w).mpr hfitq)⟩

/-! ### A match is a low byte and reserved fields of 0 (R302 to R304) -/

/-- The reserved fields of a format from bit 8 up, each by its lowest bit and its width (R302 to R304). -/
def Format.reserved : Format → List (Nat × Nat)
  | .threeReg => [(24, 8), (20, 4)]
  | .fourReg => [(24, 8)]
  | .compare => [(24, 8), (20, 4), (8, 4)]
  | .immediate => [(12, 4)]

/-- Every reserved field of the format is 0. -/
def Format.ReservedZero {n : Nat} (f : Format) (w : BitVec n) : Prop :=
  ∀ field ∈ f.reserved, w.extractLsb' field.1 field.2 = 0

/-- A mask is the low byte (op, s and bit 7) and the reserved fields of its format. -/
theorem mask_bit_iff (f : Format) : ∀ i < 32,
    f.mask.getLsbD i = true ↔ i < 8 ∨ ∃ field ∈ f.reserved, field.1 ≤ i ∧ i < field.1 + field.2 := by
  cases f <;> decide

theorem reserved_bounds (f : Format) : ∀ field ∈ f.reserved, 8 ≤ field.1 ∧ field.1 + field.2 ≤ 32 := by
  cases f <;> decide

theorem reservedZero_lower (f : Format) (W : Word) : f.ReservedZero (W.extractLsb' 0 32) ↔ f.ReservedZero W :=
  forall₂_congr fun field hfield => by rw [field_of_lower W (reserved_bounds f field hfield).2]

theorem field_eq_zero_iff (w : BitVec 32) (lo n : Nat) :
    w.extractLsb' lo n = 0 ↔ ∀ i, lo ≤ i → i < lo + n → w.getLsbD i = false := by
  constructor
  · intro h i hlo hi
    have hbit : (w.extractLsb' lo n).getLsbD (i - lo) = false := by rw [h]; exact BitVec.getLsbD_zero
    simpa [BitVec.getLsbD_extractLsb', Nat.add_sub_cancel' hlo, Nat.sub_lt_left_of_lt_add hlo hi] using hbit
  · intro h
    ext k hk
    simpa using h (lo + k) (by omega) (by omega)

/-- Under its format's mask a word is a low byte exactly when that is its low byte and its reserved fields are 0. -/
theorem and_mask_eq_iff (f : Format) (w : BitVec 32) (low : BitVec 8) :
    w &&& f.mask = low.setWidth 32 ↔ w.extractLsb' 0 8 = low ∧ f.ReservedZero w := by
  constructor
  · intro h
    have hkept : ∀ i < 32, f.mask.getLsbD i = true → w.getLsbD i = low.getLsbD i := by
      intro i hi hmask
      have hbit : (w &&& f.mask).getLsbD i = (low.setWidth 32).getLsbD i := by rw [h]
      rwa [BitVec.getLsbD_and, hmask, Bool.and_true, BitVec.getLsbD_setWidth, decide_eq_true hi, Bool.true_and] at hbit
    refine ⟨?_, fun field hfield => (field_eq_zero_iff ..).mpr fun i hlo hhi => ?_⟩
    · ext i hi
      simpa [BitVec.getLsbD_eq_getElem hi] using hkept i (by omega) ((mask_bit_iff f i (by omega)).mpr (.inl hi))
    · obtain ⟨h8, h32⟩ := reserved_bounds f field hfield
      rw [hkept i (by omega) ((mask_bit_iff f i (by omega)).mpr (.inr ⟨field, hfield, hlo, hhi⟩))]
      exact BitVec.getLsbD_of_ge _ _ (by omega)
  · rintro ⟨rfl, hzero⟩
    apply BitVec.eq_of_getLsbD_eq
    intro i hi
    rw [BitVec.getLsbD_and, BitVec.getLsbD_setWidth, BitVec.getLsbD_extractLsb', Nat.zero_add]
    by_cases hmask : f.mask.getLsbD i = true
    · rcases (mask_bit_iff f i hi).mp hmask with h8 | ⟨field, hfield, hlo, hhi⟩
      · simp [hmask, h8, hi]
      · simp [(field_eq_zero_iff ..).mp (hzero field hfield) i hlo hhi]
    · have h8 : ¬ i < 8 := fun h => hmask ((mask_bit_iff f i hi).mpr (.inl h))
      simp [hmask, h8]

/-- A row's pattern has only its low byte: the fields above it are operands or reserved. -/
theorem rows_pattern_eq_low : ∀ row ∈ opcodeTable, row.pattern = (row.pattern.extractLsb' 0 8).setWidth 32 := by
  decide

theorem row_match_iff {row : Row} (hrow : row ∈ opcodeTable) (W : Word) :
    W.extractLsb' 0 32 &&& row.format.mask = row.pattern ↔
      W.extractLsb' 0 8 = row.pattern.extractLsb' 0 8 ∧ row.format.ReservedZero W := by
  rw [rows_pattern_eq_low row hrow, and_mask_eq_iff, field_of_lower W (by norm_num), reservedZero_lower,
    ← rows_pattern_eq_low row hrow]

/-! ### The bullets of R311 -/

/-- The opcode, bits 5:0 of a word (R301). -/
def opcode {n : Nat} (w : BitVec n) : Nat := (w.extractLsb' 0 6).toNat

/-- R311, first bullet: no row has the opcode. -/
def UnassignedOpcode (op : Nat) : Prop :=
  op = 0 ∨ (0x0D ≤ op ∧ op ≤ 0x0F) ∨ (0x12 ≤ op ∧ op ≤ 0x1F) ∨ 0x21 ≤ op

/-- R311, third bullet: a field is nonzero that the format of the word's opcode reserves. -/
def ReservedSet (W : Word) : Prop :=
  (opcode W ≠ 0x20 ∧ W.extractLsb' 24 8 ≠ 0) ∨
  ((opcode W ∈ [0x01, 0x02, 0x03, 0x04, 0x08, 0x0A, 0x0B] ∨ opcode W = 0x0C) ∧ W.extractLsb' 20 4 ≠ 0) ∨
  (opcode W = 0x0C ∧ W.extractLsb' 8 4 ≠ 0) ∨
  (opcode W = 0x20 ∧ W.extractLsb' 12 4 ≠ 0)

/-- R311, fourth bullet: no row has the opcode with this s. -/
def TypeNotAllowed (op : Nat) (s : Bool) : Prop :=
  (op = 0x06 ∧ s = false) ∨ ((op = 0x10 ∨ op = 0x11) ∧ s = true)

/-- R311, fifth bullet: MULW or DIVMOD with rd = rm. -/
def SameDestinations (W : Word) : Prop :=
  (opcode W = 0x10 ∨ opcode W = 0x11) ∧ W.extractLsb' 8 4 = W.extractLsb' 20 4

/-- The low bytes of the rows are those with bit 7 clear, an assigned opcode and an s it allows. -/
theorem exists_row_low_iff : ∀ low : BitVec 8, (∃ row ∈ opcodeTable, row.pattern.extractLsb' 0 8 = low) ↔
    ¬ UnassignedOpcode (opcode low) ∧ low.getLsbD 7 = false ∧ ¬ TypeNotAllowed (opcode low) (low.getLsbD 6) := by
  simp only [UnassignedOpcode, TypeNotAllowed]
  decide +kernel

theorem opcode_low {n : Nat} (w : BitVec n) : opcode (w.extractLsb' 0 8) = opcode w := by
  rw [opcode, BitVec.extractLsb'_extractLsb'_of_le (by norm_num), opcode]

theorem exists_row_iff (W : Word) : (∃ row ∈ opcodeTable, row.pattern.extractLsb' 0 8 = W.extractLsb' 0 8) ↔
    ¬ UnassignedOpcode (opcode W) ∧ W.getLsbD 7 = false ∧ ¬ TypeNotAllowed (opcode W) (W.getLsbD 6) := by
  simp [exists_row_low_iff, opcode_low]

/-- The opcode of a row fixes its format. -/
theorem rows_format_of_opcode : ∀ row ∈ opcodeTable,
    (opcode row.pattern ∈ [0x01, 0x02, 0x03, 0x04, 0x08, 0x0A, 0x0B] ↔ row.format = .threeReg) ∧
    (opcode row.pattern = 0x0C ↔ row.format = .compare) ∧ (opcode row.pattern = 0x20 ↔ row.format = .immediate) := by
  decide

theorem rows_twoDest_iff_opcode : ∀ row ∈ opcodeTable,
    row.mnemonic ∈ ["mulw", "divmod"] ↔ opcode row.pattern = 0x10 ∨ opcode row.pattern = 0x11 := by
  decide

theorem opcode_of_low_eq {row : Row} {W : Word} (hlow : row.pattern.extractLsb' 0 8 = W.extractLsb' 0 8) :
    opcode W = opcode row.pattern := by
  rw [← opcode_low W, ← hlow, opcode_low]

theorem reservedZero_iff {row : Row} {W : Word} (hrow : row ∈ opcodeTable)
    (hlow : row.pattern.extractLsb' 0 8 = W.extractLsb' 0 8) : row.format.ReservedZero W ↔ ¬ ReservedSet W := by
  obtain ⟨hthree, hcompare, himmediate⟩ := rows_format_of_opcode row hrow
  simp only [ReservedSet, opcode_of_low_eq hlow, hthree, hcompare, himmediate, ne_eq]
  cases row.format <;> simp [Format.ReservedZero, Format.reserved]

theorem destinations_differ_iff {row : Row} {W : Word} (hrow : row ∈ opcodeTable)
    (hlow : row.pattern.extractLsb' 0 8 = W.extractLsb' 0 8) :
    (row.mnemonic ∈ ["mulw", "divmod"] → W.extractLsb' 8 4 ≠ W.extractLsb' 20 4) ↔ ¬ SameDestinations W := by
  rw [rows_twoDest_iff_opcode row hrow, SameDestinations, opcode_of_low_eq hlow, not_and]

/-- A word is a command exactly when no bullet of R311 is true of it. -/
theorem exists_decode_ok_iff (W : Word) : (∃ i, decode W = .ok i) ↔
    (¬ UnassignedOpcode (opcode W) ∧ W.getLsbD 7 = false ∧ ¬ TypeNotAllowed (opcode W) (W.getLsbD 6)) ∧
      ¬ ReservedSet W ∧ ¬ SameDestinations W ∧ W.extractLsb' 32 32 = 0 := by
  simp only [decode_eq_ok_iff_match, ← exists_row_iff]
  constructor
  · rintro ⟨i, hupper, row, hrow, hmatch, hdest, -⟩
    obtain ⟨hlow, hzero⟩ := (row_match_iff hrow W).mp hmatch
    exact ⟨⟨row, hrow, hlow.symm⟩, (reservedZero_iff hrow hlow.symm).mp hzero,
      (destinations_differ_iff hrow hlow.symm).mp hdest, hupper⟩
  · rintro ⟨⟨row, hrow, hlow⟩, hreserved, hsame, hupper⟩
    exact ⟨_, hupper, row, hrow, (row_match_iff hrow W).mpr ⟨hlow.symm, (reservedZero_iff hrow hlow).mpr hreserved⟩,
      (destinations_differ_iff hrow hlow).mpr hsame, rfl⟩

theorem exists_decode_error_iff (W : Word) : (∃ e, decode W = .error e) ↔
    UnassignedOpcode (opcode W) ∨ W.getLsbD 7 = true ∨ ReservedSet W ∨ TypeNotAllowed (opcode W) (W.getLsbD 6) ∨
      SameDestinations W ∨ W.extractLsb' 32 32 ≠ 0 := by
  have hrefused : (∃ e, decode W = .error e) ↔ ¬ ∃ i, decode W = .ok i := by cases decode W <;> simp
  rw [hrefused, exists_decode_ok_iff, ← Bool.not_eq_true]
  tauto

/-- Settles O8: the bullets are the failures of a row's match, of its destinations and of the upper half; a refused word
completes with the raise of ILLEGAL, whose code is 1. -/
theorem illegalWordsAreTheListedOnes : Obligations.IllegalWordsAreTheListedOnes := by
  refine ⟨fun W => (exists_decode_error_iff W).trans ?_, fun W e s h => ?_⟩
  · simp only [UnassignedOpcode, ReservedSet, TypeNotAllowed, SameDestinations, opcode, or_assoc]
  · exact ⟨_, Machine.completeWord_of_decode_error h s, Machine.doneInError_raise s .illegal⟩

end Sys2Proof
end

section
/-! PROOFS. 40_add_sub: the words of the 3R commands, and ADD and SUB (R401, R402). -/

namespace Sys2Proof

/-! ### The word of a three-register command (R302, R401) -/

/-- The rule's word of a 3R row decodes to the row's command on the rule's registers. -/
theorem decode_ruleWord_threeReg {mnemonic : String} {low : BitVec 8} {command : RegId → RegId → RegId → Instr}
    (hrow : ⟨mnemonic, .threeReg, low.setWidth 32, fun f => command f.rd f.ra f.rb⟩ ∈ opcodeTable)
    (rd ra rb : RegId) (hwf : (command rd ra rb).wf = true) :
    decode (ruleWord (low.setWidth 64) rd ra rb 0) = .ok (command rd ra rb) := by
  obtain ⟨hrd, hra, hrb⟩ := encode3R_fields low rd ra rb
  rw [ruleWord_eq_encode4R, encode4R_zero, decode_eq_ok_iff]
  refine ⟨upper_setWidth _, _, hrow, ?_, ?_, ?_⟩ <;> rw [lower_setWidth]
  · exact (Row.fits_iff ..).mpr (encode3R_mask low rd ra rb)
  · simpa only [fieldsOf, hrd, hra, hrb] using hwf
  · simp only [fieldsOf, hrd, hra, hrb]

theorem decode_addU (rd ra rb : RegId) : decode (ruleWord 0x01 rd ra rb 0) = .ok (.addU rd ra rb) :=
  decode_ruleWord_threeReg (low := 0x01) (command := .addU) (List.mem_of_getElem? (i := 0) rfl) rd ra rb rfl

theorem decode_addS (rd ra rb : RegId) : decode (ruleWord 0x41 rd ra rb 0) = .ok (.addS rd ra rb) :=
  decode_ruleWord_threeReg (low := 0x41) (command := .addS) (List.mem_of_getElem? (i := 1) rfl) rd ra rb rfl

theorem decode_subU (rd ra rb : RegId) : decode (ruleWord 0x02 rd ra rb 0) = .ok (.subU rd ra rb) :=
  decode_ruleWord_threeReg (low := 0x02) (command := .subU) (List.mem_of_getElem? (i := 2) rfl) rd ra rb rfl

theorem decode_subS (rd ra rb : RegId) : decode (ruleWord 0x42 rd ra rb 0) = .ok (.subS rd ra rb) :=
  decode_ruleWord_threeReg (low := 0x42) (command := .subS) (List.mem_of_getElem? (i := 3) rfl) rd ra rb rfl

end Sys2Proof

namespace Sys2Proof.Machine

/-! ### Sums and differences of encodings (R8) -/

theorem enc_add (y z : Int) : enc (y + z) = enc y + enc z := BitVec.ofInt_add y z

theorem enc_sub (y z : Int) : enc (y - z) = enc y - enc z := by
  rw [sub_eq_add_neg, enc_add, BitVec.sub_eq_add_neg, enc, enc, enc, BitVec.ofInt_neg]

/-! ### ADD (R401) -/

theorem addCommand_eq (rd ra rb : RegId) (s : State) : addCommand rd ra rb s =
    .next ((s.setX rd (s.x ra + s.x rb)).setC (decide (2 ^ 256 ≤ uval (s.x ra) + uval (s.x rb)))).succeed := by
  rw [addCommand, add256_sum, add256_carry]

/-- Settles O14: both types run one command, which writes the wrapped sum of the patterns; uval and sval give the same
one, since enc takes each back to its pattern and sums to sums. -/
theorem addWritesWrappedSumAndCarry : Obligations.AddWritesWrappedSumAndCarry := by
  intro rd ra rb s
  refine ⟨decode_addU rd ra rb, decode_addS rd ra rb, fun i hi => ?_⟩
  have hexec : exec i s = addCommand rd ra rb s := by
    obtain rfl | rfl : i = .addU rd ra rb ∨ i = .addS rd ra rb := by simpa using hi
    · rfl
    · rfl
  refine ⟨_, hexec.trans (addCommand_eq rd ra rb s), ?_, ?_, ?_, rfl, doneWriting_setC ..⟩
  · simp [enc_add, enc_uval]
  · simp [enc_add, enc_sval]
  · rw [State.succeed_c, State.setC_c, decide_eq_true_iff]

/-! ### SUB (R402) -/

theorem subCommand_eq (rd ra rb : RegId) (s : State) : subCommand rd ra rb s =
    .next ((s.setX rd (s.x ra - s.x rb)).setC (decide (uval (s.x ra) < uval (s.x rb)))).succeed := by
  rw [subCommand, sub256_diff, sub256_borrow]

/-- Settles O15: both types run one command, which writes the wrapped difference of the patterns; uval and sval give the
same one, since enc takes each back to its pattern and differences to differences. -/
theorem subWritesWrappedDifferenceAndBorrow : Obligations.SubWritesWrappedDifferenceAndBorrow := by
  intro rd ra rb s
  refine ⟨decode_subU rd ra rb, decode_subS rd ra rb, fun i hi => ?_⟩
  have hexec : exec i s = subCommand rd ra rb s := by
    obtain rfl | rfl : i = .subU rd ra rb ∨ i = .subS rd ra rb := by simpa using hi
    · rfl
    · rfl
  refine ⟨_, hexec.trans (subCommand_eq rd ra rb s), ?_, ?_, ?_, rfl, doneWriting_setC ..⟩
  · simp [enc_sub, enc_uval]
  · simp [enc_sub, enc_sval]
  · rw [State.succeed_c, State.setC_c, decide_eq_true_iff]

end Sys2Proof.Machine
end

section
/-! PROOFS. 41_multiply: the words of the 4R commands, and MULW (R452). -/

namespace Sys2Proof

/-! ### The word of a four-register command (R303, R452) -/

/-- The rule's word of a 4R row decodes to the row's command on the rule's registers, if that is well formed. -/
theorem decode_ruleWord_fourReg {mnemonic : String} {low : BitVec 8}
    {command : RegId → RegId → RegId → RegId → Instr}
    (hrow : ⟨mnemonic, .fourReg, low.setWidth 32, fun f => command f.rd f.ra f.rb f.rm⟩ ∈ opcodeTable)
    (rd ra rb rm : RegId) (hwf : (command rd ra rb rm).wf = true) :
    decode (ruleWord (low.setWidth 64) rd ra rb rm) = .ok (command rd ra rb rm) := by
  obtain ⟨hrd, hra, hrb, hrm⟩ := encode4R_fields low rd ra rb rm
  rw [ruleWord_eq_encode4R, decode_eq_ok_iff]
  refine ⟨upper_setWidth _, _, hrow, ?_, ?_, ?_⟩ <;> rw [lower_setWidth]
  · exact (Row.fits_iff ..).mpr (encode4R_mask low rd ra rb rm)
  · simpa only [fieldsOf, hrd, hra, hrb, hrm] using hwf
  · simp only [fieldsOf, hrd, hra, hrb, hrm]

theorem ruleWord_low (low : BitVec 8) (rd ra rb rm : RegId) :
    (ruleWord (low.setWidth 64) rd ra rb rm).extractLsb' 0 8 = low := by
  rw [ruleWord_eq_encode4R, ← field_of_lower _ (by norm_num), lower_setWidth]
  exact ((and_mask_eq_iff .fourReg _ low).mp (encode4R_mask low rd ra rb rm)).1

theorem opcode_ruleWord (low : BitVec 8) (rd ra rb rm : RegId) :
    opcode (ruleWord (low.setWidth 64) rd ra rb rm) = opcode low := by
  rw [← opcode_low, ruleWord_low]

theorem ruleWord_type (low : BitVec 8) (rd ra rb rm : RegId) :
    (ruleWord (low.setWidth 64) rd ra rb rm).getLsbD 6 = low.getLsbD 6 := by
  conv_rhs => rw [← ruleWord_low low rd ra rb rm]
  simp

theorem ruleWord_destinations (low : BitVec 8) (rd ra rb rm : RegId) :
    (ruleWord (low.setWidth 64) rd ra rb rm).extractLsb' 8 4 =
      (ruleWord (low.setWidth 64) rd ra rb rm).extractLsb' 20 4 ↔ rd = rm := by
  obtain ⟨hrd, -, -, hrm⟩ := encode4R_fields low rd ra rb rm
  rw [ruleWord_eq_encode4R, ← field_of_lower _ (by norm_num), ← field_of_lower (lo := 20) _ (by norm_num),
    lower_setWidth, ← regField_inj, hrd, hrm]

/-- R311, fourth bullet, of a rule's word: its opcode has no row with its s. -/
theorem decode_ruleWord_of_typeNotAllowed {low : BitVec 8} (h : TypeNotAllowed (opcode low) (low.getLsbD 6))
    (rd ra rb rm : RegId) : ∃ e, decode (ruleWord (low.setWidth 64) rd ra rb rm) = .error e := by
  rw [exists_decode_error_iff, opcode_ruleWord, ruleWord_type]
  exact .inr (.inr (.inr (.inl h)))

/-- R311, fifth bullet, of a rule's word: MULW or DIVMOD with its two destinations equal. -/
theorem decode_ruleWord_of_same_destination {low : BitVec 8} (hop : opcode low = 0x10 ∨ opcode low = 0x11)
    (rd ra rb : RegId) : ∃ e, decode (ruleWord (low.setWidth 64) rd ra rb rd) = .error e := by
  rw [exists_decode_error_iff, SameDestinations, opcode_ruleWord, ruleWord_destinations]
  exact .inr (.inr (.inr (.inr (.inl ⟨hop, rfl⟩))))

theorem decode_mulw {rd rh : RegId} (hne : rd ≠ rh) (ra rb : RegId) :
    decode (ruleWord 0x10 rd ra rb rh) = .ok (.mulw rd ra rb rh) :=
  decode_ruleWord_fourReg (low := 0x10) (command := .mulw) (List.mem_of_getElem? (i := 23) rfl) rd ra rb rh
    (decide_eq_true hne)

end Sys2Proof

namespace Sys2Proof.Machine

/-! ### MULW (R452) -/

/-- The two halves of a wide value make it up. -/
theorem uval_halves (p : Wide) : uval (highHalf p) * 2 ^ 256 + uval (lowHalf p) = p.toNat := by
  rw [uval_highHalf, uval_lowHalf, Nat.div_add_mod']

theorem execMulw_same (rd ra rb : RegId) (s : State) : execMulw rd ra rb rd s = .next (s.raise .illegal) := if_pos rfl

theorem execMulw_ne {rd rh : RegId} (hne : rd ≠ rh) (ra rb : RegId) (s : State) : execMulw rd ra rb rh s =
    .next ((s.setX rd (lowHalf (mulWide (s.x ra) (s.x rb)))).setX rh
      (highHalf (mulWide (s.x ra) (s.x rb)))).succeed := if_neg hne

/-- Settles O18: the words refused are R311's, the term with equal destinations takes the raise, and otherwise the two
registers hold the halves of the exact product, the low one kept by the second write since rd ≠ rh. -/
theorem mulwWritesBothHalves : Obligations.MulwWritesBothHalves := by
  intro rd ra rb rh s
  refine ⟨decode_ruleWord_of_typeNotAllowed (low := 0x50) (.inr ⟨.inl rfl, rfl⟩) rd ra rb rh, ?_, fun hne => ?_⟩
  · rintro rfl
    exact ⟨decode_ruleWord_of_same_destination (low := 0x10) (.inl rfl) rd ra rb,
      _, execMulw_same rd ra rb s, doneInError_raise s .illegal⟩
  · refine ⟨decode_mulw hne ra rb, _, execMulw_ne hne ra rb s, ?_, rfl, rfl, doneWriting_two ..⟩
    rw [x_succeed, x_succeed, x_setX_self, x_setX_ne _ _ hne, x_setX_self, uval_halves, mulWide_toNat]

end Sys2Proof.Machine
end

section
/-! PROOFS. 42_divide: DIV and DIVMOD (R501 to R503). -/

namespace Sys2Proof

theorem decode_divU (rd ra rb : RegId) : decode (ruleWord 0x04 rd ra rb 0) = .ok (.divU rd ra rb) :=
  decode_ruleWord_threeReg (low := 0x04) (command := .divU) (List.mem_of_getElem? (i := 6) rfl) rd ra rb rfl

theorem decode_divS (rd ra rb : RegId) : decode (ruleWord 0x44 rd ra rb 0) = .ok (.divS rd ra rb) :=
  decode_ruleWord_threeReg (low := 0x44) (command := .divS) (List.mem_of_getElem? (i := 7) rfl) rd ra rb rfl

theorem decode_divmod {rq rr : RegId} (hne : rq ≠ rr) (ra rb : RegId) :
    decode (ruleWord 0x11 rq ra rb rr) = .ok (.divmod rq ra rb rr) :=
  decode_ruleWord_fourReg (low := 0x11) (command := .divmod) (List.mem_of_getElem? (i := 24) rfl) rq ra rb rr
    (decide_eq_true hne)

end Sys2Proof

namespace Sys2Proof.Machine

/-! ### DIVMOD (R502) -/

theorem execDivmod_same (rq ra rb : RegId) (s : State) : execDivmod rq ra rb rq s = .next (s.raise .illegal) := if_pos rfl

theorem execDivmod_zero {rq rr rb : RegId} {s : State} (hne : rq ≠ rr) (hb : s.x rb = 0) (ra : RegId) :
    execDivmod rq ra rb rr s = .next (s.raise .divZero) := (if_neg hne).trans (if_pos hb)

theorem execDivmod_ne_zero {rq rr rb : RegId} {s : State} (hne : rq ≠ rr) (hb : s.x rb ≠ 0) (ra : RegId) :
    execDivmod rq ra rb rr s = .next ((s.setX rq (divModN (s.x ra) (s.x rb)).1).setX rr
      (divModN (s.x ra) (s.x rb)).2).succeed := (if_neg hne).trans (if_neg hb)

/-- The division identity of R502, of the divider's two results. -/
theorem divModN_identity (a b : Value) (hb : b ≠ 0) :
    uval a = uval (divModN a b).1 * uval b + uval (divModN a b).2 ∧ uval (divModN a b).2 < uval b := by
  have hpos : 0 < uval b := Nat.pos_of_ne_zero (mt (uval_eq_zero_iff b).mp hb)
  have hquotient : uval (divModN a b).1 = uval a / uval b := divModN_quotient a b
  have hremainder : uval (divModN a b).2 = uval a % uval b := divModN_remainder a b hb
  rw [hquotient, hremainder]
  exact ⟨(Nat.div_add_mod' ..).symm, Nat.mod_lt _ hpos⟩

/-- Settles O20: the words refused are R311's, equal destinations take the raise before the divisor is looked at, and
otherwise the registers hold the divider's results, the quotient kept by the second write since rq ≠ rr. -/
theorem divmodWritesQuotientAndRemainder : Obligations.DivmodWritesQuotientAndRemainder := by
  intro rq ra rb rr s
  refine ⟨decode_ruleWord_of_typeNotAllowed (low := 0x51) (.inr ⟨.inr rfl, rfl⟩) rq ra rb rr, ?_,
    fun hne => decode_divmod hne ra rb, fun hne hb => ?_, fun hne hb => ?_⟩
  · rintro rfl
    exact ⟨decode_ruleWord_of_same_destination (low := 0x11) (.inr rfl) rq ra rb,
      _, execDivmod_same rq ra rb s, doneInError_raise s .illegal⟩
  · exact ⟨_, execDivmod_zero hne ((uval_eq_zero_iff _).mp hb) ra, doneInError_raise s .divZero⟩
  · have hb' : s.x rb ≠ 0 := mt (uval_eq_zero_iff _).mpr hb
    obtain ⟨hidentity, hlt⟩ := divModN_identity (s.x ra) (s.x rb) hb'
    refine ⟨_, execDivmod_ne_zero hne hb' ra, ?_, ?_, rfl, rfl, doneWriting_two ..⟩
    · rwa [x_succeed, x_succeed, x_setX_self, x_setX_ne _ _ hne, x_setX_self]
    · rwa [x_succeed, x_setX_self]

/-! ### DIV.s (R503) -/

theorem execDivS_zero {rb : RegId} {s : State} (hb : s.x rb = 0) (rd ra : RegId) :
    execDivS rd ra rb s = .next (s.raise .divZero) := if_pos hb

theorem execDivS_ne_zero {rb : RegId} {s : State} (hb : s.x rb ≠ 0) (rd ra : RegId) :
    execDivS rd ra rb s = .next (s.setX rd (withSign (isNeg (s.x ra) != isNeg (s.x rb))
      (divModN (magnitude (s.x ra)) (magnitude (s.x rb))).1)).succeed := if_neg hb

theorem isNeg_eq_decide (v : Value) : isNeg v = decide (sval v < 0) := by
  rw [Bool.eq_iff_iff, decide_eq_true_iff, sval_neg_iff]

/-- R503's reading of tdiv: the quotient of the absolute values, negative when exactly one operand is. -/
theorem tdiv_eq_ite (x : Int) {y : Int} (hy : y ≠ 0) : tdiv x y =
    if (decide (x < 0) != decide (y < 0)) then -((x.natAbs / y.natAbs : Nat) : Int) else (x.natAbs / y.natAbs : Nat) := by
  have hsign_y : y.sign = if y < 0 then -1 else 1 := by
    split
    · exact Int.sign_eq_neg_one_of_neg ‹_›
    · exact Int.sign_eq_one_of_pos (by omega)
  rw [tdiv, hsign_y]
  rcases lt_trichotomy x 0 with hx | rfl | hx
  · by_cases h : y < 0 <;> simp [h, hx, Int.sign_eq_neg_one_of_neg hx]
  · simp
  · by_cases h : y < 0 <;> simp [h, not_lt.mpr hx.le, Int.sign_eq_one_of_pos hx]

/-- The divider on the magnitudes, under the sign of R503, is the truncated quotient. -/
theorem withSign_divModN_magnitude (a b : Value) (hb : sval b ≠ 0) :
    withSign (isNeg a != isNeg b) (divModN (magnitude a) (magnitude b)).1 = enc (tdiv (sval a) (sval b)) := by
  have hquotient : uval (divModN (magnitude a) (magnitude b)).1 = (sval a).natAbs / (sval b).natAbs := by
    rw [← uval_magnitude, ← uval_magnitude]; exact divModN_quotient ..
  rw [withSign_eq, hquotient, tdiv_eq_ite _ hb, isNeg_eq_decide, isNeg_eq_decide]

/-- The one quotient out of range, 2^255, has the pattern of Min (R503). -/
theorem enc_tdiv_min_neg_one : enc (tdiv (-2 ^ 255) (-1)) = enc (-2 ^ 255) := by
  rw [enc_eq_iff]; decide

/-- Settles O21: the quotient of the magnitudes under its sign is tdiv, and the one that is out of range wraps to Min. -/
theorem divSTruncatesTowardZeroOrRaises : Obligations.DivSTruncatesTowardZeroOrRaises := by
  intro rd ra rb s
  refine ⟨decode_divS rd ra rb, fun hb => ?_, fun hb => ?_⟩
  · exact ⟨_, execDivS_zero ((sval_eq_zero_iff _).mp hb) rd ra, doneInError_raise s .divZero⟩
  · have hresult := withSign_divModN_magnitude (s.x ra) (s.x rb) hb
    refine ⟨_, execDivS_ne_zero (mt (sval_eq_zero_iff _).mpr hb) rd ra, ?_, ?_, rfl, rfl, doneWriting_one ..⟩
    · rw [x_succeed, x_setX_self, hresult]
    · rintro ⟨hmin, hneg_one⟩
      rw [x_succeed, x_setX_self, hresult, hmin, hneg_one, enc_tdiv_min_neg_one, ← hmin, enc_sval]

/-! ### DIV.u (R501) -/

theorem execDivU_zero {rb : RegId} {s : State} (hb : s.x rb = 0) (rd ra : RegId) :
    execDivU rd ra rb s = .next (s.raise .divZero) := if_pos hb

theorem execDivU_ne_zero {rb : RegId} {s : State} (hb : s.x rb ≠ 0) (rd ra : RegId) :
    execDivU rd ra rb s = .next (s.setX rd (divModN (s.x ra) (s.x rb)).1).succeed := if_neg hb

/-- Settles O19: a zero divisor takes the raise, whose code is 2, and any other the divider's quotient. -/
theorem divUWritesQuotientOrRaises : Obligations.DivUWritesQuotientOrRaises := by
  intro rd ra rb s
  refine ⟨decode_divU rd ra rb, fun hb => ?_, fun hb => ?_⟩
  · exact ⟨_, execDivU_zero ((uval_eq_zero_iff _).mp hb) rd ra, doneInError_raise s .divZero⟩
  · refine ⟨_, execDivU_ne_zero (mt (uval_eq_zero_iff _).mpr hb) rd ra, ?_, rfl, rfl, doneWriting_one ..⟩
    rw [x_succeed, x_setX_self]
    exact divModN_quotient ..

end Sys2Proof.Machine
end

section
/-! PROOFS. 43_modular: ADDMOD, SUBMOD and MULMOD (R551 to R555). -/

namespace Sys2Proof

theorem decode_addmodU (rd ra rb rm : RegId) : decode (ruleWord 0x05 rd ra rb rm) = .ok (.addmodU rd ra rb rm) :=
  decode_ruleWord_fourReg (low := 0x05) (command := .addmodU) (List.mem_of_getElem? (i := 8) rfl) rd ra rb rm rfl

theorem decode_addmodS (rd ra rb rm : RegId) : decode (ruleWord 0x45 rd ra rb rm) = .ok (.addmodS rd ra rb rm) :=
  decode_ruleWord_fourReg (low := 0x45) (command := .addmodS) (List.mem_of_getElem? (i := 9) rfl) rd ra rb rm rfl

theorem decode_submodS (rd ra rb rm : RegId) : decode (ruleWord 0x46 rd ra rb rm) = .ok (.submodS rd ra rb rm) :=
  decode_ruleWord_fourReg (low := 0x46) (command := .submodS) (List.mem_of_getElem? (i := 10) rfl) rd ra rb rm rfl

theorem decode_mulmodU (rd ra rb rm : RegId) : decode (ruleWord 0x07 rd ra rb rm) = .ok (.mulmodU rd ra rb rm) :=
  decode_ruleWord_fourReg (low := 0x07) (command := .mulmodU) (List.mem_of_getElem? (i := 11) rfl) rd ra rb rm rfl

theorem decode_mulmodS (rd ra rb rm : RegId) : decode (ruleWord 0x47 rd ra rb rm) = .ok (.mulmodS rd ra rb rm) :=
  decode_ruleWord_fourReg (low := 0x47) (command := .mulmodS) (List.mem_of_getElem? (i := 12) rfl) rd ra rb rm rfl

end Sys2Proof

namespace Sys2Proof.Machine

/-! ### The shape the modular commands share -/

/-- A zero modulus raises MOD_ZERO; otherwise `v` goes to rd. The exec_ lemmas below tie it to the commands. -/
def modularCommand (rd rm : RegId) (v : Value) (s : State) : Result :=
  if s.x rm = 0 then raiseError .modZero s else writeOne rd v s

/-- The 257-bit sum {c, sum} of the adder, as the reduction reads it (R551). -/
def wideSum (a b : Value) : Wide := (BitVec.ofBool (add256 a b).2 ++ (add256 a b).1).setWidth 512

theorem exec_addmodU (rd ra rb rm : RegId) (s : State) : exec (.addmodU rd ra rb rm) s =
    modularCommand rd rm (reduce (wideSum (s.x ra) (s.x rb)) (s.x rm)) s := rfl

theorem exec_addmodS (rd ra rb rm : RegId) (s : State) : exec (.addmodS rd ra rb rm) s =
    modularCommand rd rm (sreduce (sval (s.x ra) + sval (s.x rb)) (s.x rm)) s := rfl

theorem exec_submodS (rd ra rb rm : RegId) (s : State) : exec (.submodS rd ra rb rm) s =
    modularCommand rd rm (sreduce (sval (s.x ra) - sval (s.x rb)) (s.x rm)) s := rfl

theorem exec_mulmodU (rd ra rb rm : RegId) (s : State) : exec (.mulmodU rd ra rb rm) s =
    modularCommand rd rm (reduce (mulWide (s.x ra) (s.x rb)) (s.x rm)) s := rfl

theorem exec_mulmodS (rd ra rb rm : RegId) (s : State) : exec (.mulmodS rd ra rb rm) s =
    modularCommand rd rm (sreduce (sval (s.x ra) * sval (s.x rb)) (s.x rm)) s := rfl

theorem modularCommand_zero {rm : RegId} {s : State} (hm : s.x rm = 0) (rd : RegId) (v : Value) :
    modularCommand rd rm v s = .next (s.raise .modZero) := if_pos hm

theorem modularCommand_ne_zero {rm : RegId} {s : State} (hm : s.x rm ≠ 0) (rd : RegId) (v : Value) :
    modularCommand rd rm v s = .next (s.setX rd v).succeed := if_neg hm

/-! ### Reduction of an unsigned value (R551, R552) -/

theorem modularCommand_reduce (rd rm : RegId) (X : Wide) (s : State) :
    (uval (s.x rm) = 0 → ∃ t, modularCommand rd rm (reduce X (s.x rm)) s = .next t ∧ s.DoneInError t 3) ∧
    (uval (s.x rm) ≠ 0 → ∃ t, modularCommand rd rm (reduce X (s.x rm)) s = .next t ∧
      uval (t.x rd) = X.toNat % uval (s.x rm) ∧ t.c = s.c ∧ t.cmp = s.cmp ∧ s.DoneWriting t [rd]) := by
  rw [Ne, uval_eq_zero_iff]
  refine ⟨fun hm => ⟨_, modularCommand_zero hm .., doneInError_raise s .modZero⟩, fun hm => ?_⟩
  refine ⟨_, modularCommand_ne_zero hm .., ?_, rfl, rfl, doneWriting_one ..⟩
  rw [x_succeed, x_setX_self, uval_reduce _ _ hm]

/-- The carry is the sum's bit 256, so nothing of the sum is lost. -/
theorem wideSum_toNat (a b : Value) : (wideSum a b).toNat = uval a + uval b := by
  have hlow : (add256 a b).1.toNat < 2 ^ 256 := (add256 a b).1.isLt
  have hcat : (BitVec.ofBool (add256 a b).2 ++ (add256 a b).1).toNat =
      2 ^ 256 * (add256 a b).2.toNat + (add256 a b).1.toNat := by
    rw [BitVec.toNat_append, BitVec.toNat_ofBool, Nat.shiftLeft_eq, mul_comm, Nat.two_pow_add_eq_or_of_lt hlow]
  rw [wideSum, BitVec.toNat_setWidth_of_le (by norm_num), hcat, ← add_val, uval, add_comm]

/-- Settles O24: the value reduced is the sum with its carry on top, which is the exact sum. -/
theorem addmodUReducesTheExactSum : Obligations.AddmodUReducesTheExactSum := by
  intro rd ra rb rm s
  rw [exec_addmodU, ← wideSum_toNat]
  exact ⟨decode_addmodU rd ra rb rm, modularCommand_reduce ..⟩

/-- Settles O25: the value reduced is the wide product, which is exact. -/
theorem mulmodUReducesTheExactProduct : Obligations.MulmodUReducesTheExactProduct := by
  intro rd ra rb rm s
  rw [exec_mulmodU, ← mulWide_toNat]
  exact ⟨decode_mulmodU rd ra rb rm, modularCommand_reduce ..⟩

/-! ### Reduction of a signed value (R553 to R555) -/

theorem sval_enc {z : Int} (hlow : -2 ^ 255 ≤ z) (hhigh : z < 2 ^ 255) : sval (enc z) = z := by
  rw [sval_toInt]
  exact BitVec.toInt_ofInt_eq_self (by norm_num) hlow hhigh

theorem natAbs_sval_le (v : Value) : (sval v).natAbs ≤ 2 ^ 255 := by
  have hrange := sval_range v
  omega

theorem natAbs_tmod_lt (X : Int) {k : Nat} (hk : 0 < k) : (tmod X k).natAbs < k := by
  rw [tmod, Int.natAbs_mul, Int.natAbs_natCast, Int.natAbs_sign]
  split
  · rwa [zero_mul]
  · rw [one_mul]; exact Nat.mod_lt _ hk

/-- The remainder is below |m| ≤ 2^255, so its pattern reads back as it. -/
theorem sval_sreduce (X : Int) (m : Value) (hm : m ≠ 0) (hX : X.natAbs < 2 ^ 512) :
    sval (sreduce X m) = tmod X (sval m).natAbs := by
  have hpos : 0 < (sval m).natAbs := Int.natAbs_pos.mpr (mt (sval_eq_zero_iff m).mp hm)
  have hlt : (tmod X (sval m).natAbs).natAbs < 2 ^ 255 := (natAbs_tmod_lt X hpos).trans_le (natAbs_sval_le m)
  rw [sreduce_eq X m hm hX]
  exact sval_enc (by omega) (by omega)

theorem modularCommand_sreduce (rd rm : RegId) (X : Int) (s : State) (hX : X.natAbs < 2 ^ 512) :
    (sval (s.x rm) = 0 → ∃ t, modularCommand rd rm (sreduce X (s.x rm)) s = .next t ∧ s.DoneInError t 3) ∧
    (sval (s.x rm) ≠ 0 → ∃ t, modularCommand rd rm (sreduce X (s.x rm)) s = .next t ∧
      sval (t.x rd) = tmod X (sval (s.x rm)).natAbs ∧ t.c = s.c ∧ t.cmp = s.cmp ∧ s.DoneWriting t [rd]) := by
  rw [Ne, sval_eq_zero_iff]
  refine ⟨fun hm => ⟨_, modularCommand_zero hm .., doneInError_raise s .modZero⟩, fun hm => ?_⟩
  refine ⟨_, modularCommand_ne_zero hm .., ?_, rfl, rfl, doneWriting_one ..⟩
  rw [x_succeed, x_setX_self, sval_sreduce X _ hm hX]

/-- Settles O26: the exact sum is below 2^512 in magnitude, where the reduction with its sign is tmod by |m|. -/
theorem addmodSKeepsTheSignOfTheSum : Obligations.AddmodSKeepsTheSignOfTheSum := by
  intro rd ra rb rm s
  have hbound : (sval (s.x ra) + sval (s.x rb)).natAbs < 2 ^ 512 := by
    have ha := natAbs_sval_le (s.x ra)
    have hb := natAbs_sval_le (s.x rb)
    omega
  rw [exec_addmodS]
  exact ⟨decode_addmodS rd ra rb rm, modularCommand_sreduce rd rm _ s hbound⟩

/-- Settles O27: as for the sum; the word with s = 0 is R311's. -/
theorem submodSKeepsTheSignOfTheDifference : Obligations.SubmodSKeepsTheSignOfTheDifference := by
  intro rd ra rb rm s
  have hbound : (sval (s.x ra) - sval (s.x rb)).natAbs < 2 ^ 512 := by
    have ha := natAbs_sval_le (s.x ra)
    have hb := natAbs_sval_le (s.x rb)
    omega
  rw [exec_submodS]
  exact ⟨decode_submodS rd ra rb rm, decode_ruleWord_of_typeNotAllowed (low := 0x06) (.inl ⟨rfl, rfl⟩) rd ra rb rm,
    modularCommand_sreduce rd rm _ s hbound⟩

/-- Settles O28: the magnitude of the exact product is the product of the magnitudes, at most 2^510. -/
theorem mulmodSKeepsTheSignOfTheProduct : Obligations.MulmodSKeepsTheSignOfTheProduct := by
  intro rd ra rb rm s
  have hbound : (sval (s.x ra) * sval (s.x rb)).natAbs < 2 ^ 512 := by
    calc (sval (s.x ra) * sval (s.x rb)).natAbs
        = (sval (s.x ra)).natAbs * (sval (s.x rb)).natAbs := Int.natAbs_mul ..
      _ ≤ 2 ^ 255 * 2 ^ 255 := Nat.mul_le_mul (natAbs_sval_le _) (natAbs_sval_le _)
      _ < 2 ^ 512 := by omega
  rw [exec_mulmodS]
  exact ⟨decode_mulmodS rd ra rb rm, modularCommand_sreduce rd rm _ s hbound⟩

end Sys2Proof.Machine
end

section
/-! PROOFS. 44_exponent: EXP and EXPMOD (R601 to R604). -/

namespace Sys2Proof

theorem decode_expU (rd ra rb : RegId) : decode (ruleWord 0x08 rd ra rb 0) = .ok (.expU rd ra rb) :=
  decode_ruleWord_threeReg (low := 0x08) (command := .expU) (List.mem_of_getElem? (i := 13) rfl) rd ra rb rfl

theorem decode_expS (rd ra rb : RegId) : decode (ruleWord 0x48 rd ra rb 0) = .ok (.expS rd ra rb) :=
  decode_ruleWord_threeReg (low := 0x48) (command := .expS) (List.mem_of_getElem? (i := 14) rfl) rd ra rb rfl

theorem decode_expmodU (rd ra rb rm : RegId) : decode (ruleWord 0x09 rd ra rb rm) = .ok (.expmodU rd ra rb rm) :=
  decode_ruleWord_fourReg (low := 0x09) (command := .expmodU) (List.mem_of_getElem? (i := 15) rfl) rd ra rb rm rfl

theorem decode_expmodS (rd ra rb rm : RegId) : decode (ruleWord 0x49 rd ra rb rm) = .ok (.expmodS rd ra rb rm) :=
  decode_ruleWord_fourReg (low := 0x49) (command := .expmodS) (List.mem_of_getElem? (i := 16) rfl) rd ra rb rm rfl

end Sys2Proof

namespace Sys2Proof.Machine

/-! ### EXP.u and EXP.s (R601, R602) -/

theorem exec_expU (rd ra rb : RegId) (s : State) : exec (.expU rd ra rb) s =
    .next (s.setX rd (powWrap (s.x ra) (s.x rb))).succeed := rfl

theorem exec_expS_neg {rb : RegId} {s : State} (he : isNeg (s.x rb) = true) (rd ra : RegId) :
    exec (.expS rd ra rb) s = .next (s.raise .negExponent) := if_pos he

theorem exec_expS_nonneg {rb : RegId} {s : State} (he : isNeg (s.x rb) = false) (rd ra : RegId) :
    exec (.expS rd ra rb) s = .next (s.setX rd (powWrap (s.x ra) (s.x rb))).succeed := if_neg (Bool.eq_false_iff.mp he)

/-- R602's signed reading of the power: sval a and uval a agree modulo 2^256, and so do their powers. -/
theorem powWrap_eq_enc (a e : Value) : powWrap a e = enc (sval a ^ uval e) := by
  have hbase : (uval a : Int) ≡ sval a [ZMOD 2 ^ 256] := by
    rw [← sval_emod]
    exact Int.mod_modEq ..
  rw [← enc_uval (powWrap a e), uval_powWrap, enc_eq_iff]
  push_cast
  exact (Int.mod_modEq ..).trans (hbase.pow _)

/-- Settles O30: the pipeline's power is the power modulo 2^256. -/
theorem expUWritesThePower : Obligations.ExpUWritesThePower := by
  intro rd ra rb s
  refine ⟨decode_expU rd ra rb, _, exec_expU rd ra rb s, ?_, rfl, rfl, doneWriting_one ..⟩
  rw [x_succeed, x_setX_self, uval_powWrap]

/-- Settles O31: bit 255 of the exponent takes the raise, whose code is 4; without it the power's one pattern has R602's
two readings. -/
theorem expSWritesThePowerOrRaises : Obligations.ExpSWritesThePowerOrRaises := by
  intro rd ra rb s
  refine ⟨decode_expS rd ra rb, fun he => ?_, fun he => ?_⟩
  · exact ⟨_, exec_expS_neg he rd ra, doneInError_raise s .negExponent⟩
  · refine ⟨_, exec_expS_nonneg he rd ra, ?_, ?_, rfl, rfl, doneWriting_one ..⟩
    · rw [x_succeed, x_setX_self, powWrap_eq_enc]
    · rw [x_succeed, x_setX_self, uval_powWrap]

/-! ### EXPMOD.u (R603) -/

theorem exec_expmodU (rd ra rb rm : RegId) (s : State) : exec (.expmodU rd ra rb rm) s =
    modularCommand rd rm (powMod (s.x ra) (s.x rb) (s.x rm)) s := rfl

/-- Settles O32: a zero modulus takes the raise, and any other the pipeline's residue. -/
theorem expmodUWritesTheResidue : Obligations.ExpmodUWritesTheResidue := by
  intro rd ra rb rm s
  rw [exec_expmodU, Ne, uval_eq_zero_iff]
  refine ⟨decode_expmodU rd ra rb rm, fun hm => ?_, fun hm => ?_⟩
  · exact ⟨_, modularCommand_zero hm .., doneInError_raise s .modZero⟩
  · refine ⟨_, modularCommand_ne_zero hm .., ?_, rfl, rfl, doneWriting_one ..⟩
    rw [x_succeed, x_setX_self, uval_powMod _ _ _ hm]

/-! ### EXPMOD.s (R604) -/

theorem exec_expmodS_zero {rm : RegId} {s : State} (hm : s.x rm = 0) (rd ra rb : RegId) :
    exec (.expmodS rd ra rb rm) s = .next (s.raise .modZero) := if_pos hm

theorem exec_expmodS_neg {rb rm : RegId} {s : State} (hm : s.x rm ≠ 0) (he : isNeg (s.x rb) = true) (rd ra : RegId) :
    exec (.expmodS rd ra rb rm) s = .next (s.raise .negExponent) := (if_neg hm).trans (if_pos he)

/-- EXPMOD.s's datapath: the pipeline on the magnitudes, negative when the base is and the exponent is odd (R604). -/
def signedPowMod (a e m : Value) : Value :=
  withSign (isNeg a && e.getLsbD 0) (powMod (magnitude a) e (magnitude m))

theorem exec_expmodS_nonneg {rb rm : RegId} {s : State} (hm : s.x rm ≠ 0) (he : isNeg (s.x rb) = false)
    (rd ra : RegId) : exec (.expmodS rd ra rb rm) s =
      .next (s.setX rd (signedPowMod (s.x ra) (s.x rb) (s.x rm))).succeed :=
  (if_neg hm).trans (if_neg (Bool.eq_false_iff.mp he))

/-- The remainder as a magnitude under the sign of the number reduced (R9). -/
theorem tmod_eq_ite (X : Int) (k : Nat) :
    tmod X k = if X < 0 then -((X.natAbs % k : Nat) : Int) else (X.natAbs % k : Nat) := by
  rw [tmod]
  rcases lt_trichotomy X 0 with hX | rfl | hX
  · rw [if_pos hX, Int.sign_eq_neg_one_of_neg hX, neg_one_mul]
  · simp
  · rw [if_neg hX.not_gt, Int.sign_eq_one_of_pos hX, one_mul]

/-- A remainder by |m| is below 2^255 in magnitude, so its pattern reads back as it. -/
theorem sval_enc_tmod (X : Int) {m : Value} (hm : m ≠ 0) :
    sval (enc (tmod X (sval m).natAbs)) = tmod X (sval m).natAbs := by
  have hpos : 0 < (sval m).natAbs := Int.natAbs_pos.mpr (mt (sval_eq_zero_iff m).mp hm)
  have hlt : (tmod X (sval m).natAbs).natAbs < 2 ^ 255 := (natAbs_tmod_lt X hpos).trans_le (natAbs_sval_le m)
  exact sval_enc (by omega) (by omega)

theorem odd_uval_iff (e : Value) : Odd (uval e) ↔ e.getLsbD 0 = true := by
  rw [Nat.odd_iff, BitVec.getLsbD, Nat.testBit_zero, decide_eq_true_iff, uval]

/-- The sign R604 gives the result is the sign of the exact power. -/
theorem sval_pow_neg_iff (a e : Value) : sval a ^ uval e < 0 ↔ (isNeg a && e.getLsbD 0) = true := by
  rw [Bool.and_eq_true, ← sval_neg_iff, ← odd_uval_iff]
  rcases Nat.even_or_odd (uval e) with heven | hodd
  · exact iff_of_false (heven.pow_nonneg _).not_gt fun h => Nat.not_odd_iff_even.mpr heven h.2
  · rw [hodd.pow_neg_iff, and_iff_left hodd]

/-- The magnitude of the exact power is the power of the magnitude, so the pipeline on magnitudes gives its residue. -/
theorem sval_signedPowMod (a e : Value) {m : Value} (hm : m ≠ 0) :
    sval (signedPowMod a e m) = tmod (sval a ^ uval e) (sval m).natAbs := by
  have hmag : uval (powMod (magnitude a) e (magnitude m)) = (sval a ^ uval e).natAbs % (sval m).natAbs := by
    rw [uval_powMod _ _ _ (mt (magnitude_eq_zero_iff m).mp hm), uval_magnitude, uval_magnitude, Int.natAbs_pow]
  have henc : signedPowMod a e m = enc (tmod (sval a ^ uval e) (sval m).natAbs) := by
    simp only [signedPowMod, withSign_eq, hmag, tmod_eq_ite, sval_pow_neg_iff]
  rw [henc, sval_enc_tmod _ hm]

/-- Settles O33: the modulus is looked at before the exponent, and with neither at fault the pipeline on the magnitudes,
under the sign of the exact power, is tmod by |m|. -/
theorem expmodSKeepsTheSignOfThePower : Obligations.ExpmodSKeepsTheSignOfThePower := by
  intro rd ra rb rm s
  rw [Ne, sval_eq_zero_iff]
  refine ⟨decode_expmodS rd ra rb rm, fun hm => ?_, fun hm he => ?_, fun hm he => ?_⟩
  · exact ⟨_, exec_expmodS_zero hm rd ra rb, doneInError_raise s .modZero⟩
  · exact ⟨_, exec_expmodS_neg hm he rd ra, doneInError_raise s .negExponent⟩
  · refine ⟨_, exec_expmodS_nonneg hm he rd ra, ?_, rfl, rfl, doneWriting_one ..⟩
    rw [x_succeed, x_setX_self, sval_signedPowMod _ _ hm]

end Sys2Proof.Machine
end

section
/-! PROOFS. 45_shift: SHL and SHR (R651 to R653). -/

namespace Sys2Proof

theorem decode_shlU (rd ra rb : RegId) : decode (ruleWord 0x0A rd ra rb 0) = .ok (.shlU rd ra rb) :=
  decode_ruleWord_threeReg (low := 0x0A) (command := .shlU) (List.mem_of_getElem? (i := 17) rfl) rd ra rb rfl

theorem decode_shlS (rd ra rb : RegId) : decode (ruleWord 0x4A rd ra rb 0) = .ok (.shlS rd ra rb) :=
  decode_ruleWord_threeReg (low := 0x4A) (command := .shlS) (List.mem_of_getElem? (i := 18) rfl) rd ra rb rfl

theorem decode_shrU (rd ra rb : RegId) : decode (ruleWord 0x0B rd ra rb 0) = .ok (.shrU rd ra rb) :=
  decode_ruleWord_threeReg (low := 0x0B) (command := .shrU) (List.mem_of_getElem? (i := 19) rfl) rd ra rb rfl

theorem decode_shrS (rd ra rb : RegId) : decode (ruleWord 0x4B rd ra rb 0) = .ok (.shrS rd ra rb) :=
  decode_ruleWord_threeReg (low := 0x4B) (command := .shrS) (List.mem_of_getElem? (i := 20) rfl) rd ra rb rfl

end Sys2Proof

namespace Sys2Proof.Machine

/-! ### The shape the shift commands share -/

/-- A negative amount raises NEG_SHIFT; otherwise rd gets `fill` from 256 on and `shifted` below. The exec_ lemmas below
tie it to the commands. -/
def shiftCommand (rd rb : RegId) (fill shifted : Value) (s : State) : Result :=
  if shiftAmount (s.x rb) < 0 then raiseError .negShift s
  else if 256 ≤ shiftAmount (s.x rb) then writeOne rd fill s
  else writeOne rd shifted s

theorem exec_shlU (rd ra rb : RegId) (s : State) : exec (.shlU rd ra rb) s =
    shiftCommand rd rb 0 (shiftLeft (s.x ra) (shiftAmount (s.x rb)).toNat) s := rfl

theorem exec_shlS (rd ra rb : RegId) (s : State) : exec (.shlS rd ra rb) s =
    shiftCommand rd rb 0 (shiftLeft (s.x ra) (shiftAmount (s.x rb)).toNat) s := rfl

theorem exec_shrU (rd ra rb : RegId) (s : State) : exec (.shrU rd ra rb) s =
    shiftCommand rd rb 0 (shiftRight (s.x ra) (shiftAmount (s.x rb)).toNat 0) s := rfl

/-- The pattern whose every bit is bit 255 of `a`, as SHR.s writes it: {F, F, F, F} (R653). -/
def signFillValue (a : Value) : Value := ofLimbs [signFill a, signFill a, signFill a, signFill a]

theorem exec_shrS (rd ra rb : RegId) (s : State) : exec (.shrS rd ra rb) s =
    shiftCommand rd rb (signFillValue (s.x ra))
      (shiftRight (s.x ra) (shiftAmount (s.x rb)).toNat (signFill (s.x ra))) s := rfl

theorem shiftCommand_neg {rb : RegId} {s : State} (hn : shiftAmount (s.x rb) < 0) (rd : RegId) (fill shifted : Value) :
    shiftCommand rd rb fill shifted s = .next (s.raise .negShift) := if_pos hn

theorem shiftCommand_nonneg {rb : RegId} {s : State} (hn : 0 ≤ shiftAmount (s.x rb)) (rd : RegId)
    (fill shifted : Value) : shiftCommand rd rb fill shifted s =
      .next (s.setX rd (if 256 ≤ shiftAmount (s.x rb) then fill else shifted)).succeed := by
  rw [shiftCommand, if_neg hn.not_gt]
  split <;> rfl

/-! ### What the shifter's results are as numbers (R650) -/

theorem shiftLeft_eq_enc (a : Value) (n : Nat) : shiftLeft a n = enc (uval a * 2 ^ n) := by
  have hval : uval (shiftLeft a n) = uval a * 2 ^ n % 2 ^ 256 := by
    rw [shiftLeft_eq, uval, BitVec.toNat_shiftLeft, Nat.shiftLeft_eq, uval]
  rw [← enc_uval (shiftLeft a n), hval, enc_eq_iff]
  push_cast
  exact Int.mod_modEq ..

theorem uval_shiftRight_zero (a : Value) (n : Nat) : uval (shiftRight a n 0) = uval a / 2 ^ n := by
  rw [shiftRight_zero, uval, BitVec.toNat_ushiftRight, Nat.shiftRight_eq_div_pow, uval]

/-- Division of integers rounds to minus infinity, as the arithmetic right shift does. -/
theorem sval_shiftRight_sign (a : Value) (n : Nat) : sval (shiftRight a n (signFill a)) = sval a / 2 ^ n := by
  rw [shiftRight_sign, sval_toInt, BitVec.toInt_sshiftRight, Int.shiftRight_eq_div_pow, sval_toInt, Nat.cast_pow]
  rfl

theorem signFillValue_eq (a : Value) : signFillValue a = if isNeg a then BitVec.allOnes 256 else 0 := by
  rw [signFillValue, signFill]
  split <;> decide

/-! ### The commands -/

/-- Settles O34: a negative amount takes the raise, whose code is 5; otherwise both types write the left shift or Zero. -/
theorem shlShiftsLeftOrRaises : Obligations.ShlShiftsLeftOrRaises := by
  intro rd ra rb s
  refine ⟨decode_shlU rd ra rb, decode_shlS rd ra rb, fun i hi => ?_⟩
  have hexec : exec i s = shiftCommand rd rb 0 (shiftLeft (s.x ra) (shiftAmount (s.x rb)).toNat) s := by
    rcases List.mem_pair.mp hi with rfl | rfl
    · exact exec_shlU ..
    · exact exec_shlS ..
  rw [hexec, shiftLeft_eq_enc]
  refine ⟨fun hn => ?_, fun hn => ?_⟩
  · exact ⟨_, shiftCommand_neg hn .., doneInError_raise s .negShift⟩
  · refine ⟨_, shiftCommand_nonneg hn .., ?_, rfl, rfl, doneWriting_one ..⟩
    rw [x_succeed, x_setX_self]
    rfl

/-- Settles O35: below 256 the zero-filled shift is the quotient by the power of two. -/
theorem shrUShiftsRightOrRaises : Obligations.ShrUShiftsRightOrRaises := by
  intro rd ra rb s
  rw [exec_shrU]
  refine ⟨decode_shrU rd ra rb, fun hn => ?_, fun hn => ?_⟩
  · exact ⟨_, shiftCommand_neg hn .., doneInError_raise s .negShift⟩
  · refine ⟨_, shiftCommand_nonneg hn .., ?_, rfl, rfl, doneWriting_one ..⟩
    rw [x_succeed, x_setX_self, apply_ite uval, uval_shiftRight_zero]
    rfl

/-- Settles O36: below 256 the sign-filled shift is the floor of the signed quotient, and from 256 on only the sign is
left. -/
theorem shrSFloorsOrRaises : Obligations.ShrSFloorsOrRaises := by
  intro rd ra rb s
  rw [exec_shrS]
  refine ⟨decode_shrS rd ra rb, fun hn => ?_, fun hn => ?_⟩
  · exact ⟨_, shiftCommand_neg hn .., doneInError_raise s .negShift⟩
  · refine ⟨_, shiftCommand_nonneg hn .., fun (hlt : shiftAmount (s.x rb) < 256) => ?_,
      fun (hge : 256 ≤ shiftAmount (s.x rb)) => ?_, rfl, rfl, doneWriting_one ..⟩
    · rw [x_succeed, x_setX_self, if_neg hlt.not_ge, sval_shiftRight_sign]
      rfl
    · rw [x_succeed, x_setX_self, if_pos hge, signFillValue_eq]
      rfl

end Sys2Proof.Machine
end

section
/-! PROOFS. 46_compare_load: the words of formats C and I, CMP (R701, R702) and LDI (R703). -/

namespace Sys2Proof

/-! ### The word of a compare command (R304, R701) -/

/-- The rule's word of a C row decodes to the row's command on the rule's registers. -/
theorem decode_ruleWord_compare {mnemonic : String} {low : BitVec 8} {command : RegId → RegId → Instr}
    (hrow : ⟨mnemonic, .compare, low.setWidth 32, fun f => command f.ra f.rb⟩ ∈ opcodeTable)
    (ra rb : RegId) (hwf : (command ra rb).wf = true) :
    decode (ruleWord (low.setWidth 64) 0 ra rb 0) = .ok (command ra rb) := by
  obtain ⟨hra, hrb⟩ := encodeC_fields low ra rb
  rw [ruleWord_eq_encode4R, encode4R_zero, encode3R_zero, decode_eq_ok_iff]
  refine ⟨upper_setWidth _, _, hrow, ?_, ?_, ?_⟩ <;> rw [lower_setWidth]
  · exact (Row.fits_iff ..).mpr (encodeC_mask low ra rb)
  · simpa only [fieldsOf, hra, hrb] using hwf
  · simp only [fieldsOf, hra, hrb]

theorem decode_cmpU (ra rb : RegId) : decode (ruleWord 0x0C 0 ra rb 0) = .ok (.cmpU ra rb) :=
  decode_ruleWord_compare (low := 0x0C) (command := .cmpU) (List.mem_of_getElem? (i := 21) rfl) ra rb rfl

theorem decode_cmpS (ra rb : RegId) : decode (ruleWord 0x4C 0 ra rb 0) = .ok (.cmpS ra rb) :=
  decode_ruleWord_compare (low := 0x4C) (command := .cmpS) (List.mem_of_getElem? (i := 22) rfl) ra rb rfl

/-! ### The word of an immediate command (R304, R703) -/

/-- The rule's word of an I row decodes to the row's command on the rule's register and immediate. -/
theorem decode_ruleWordI {mnemonic : String} {low : BitVec 8} {command : RegId → BitVec 16 → Instr}
    (hrow : ⟨mnemonic, .immediate, low.setWidth 32, fun f => command f.rd f.imm16⟩ ∈ opcodeTable)
    (rd : RegId) (imm : BitVec 16) (hwf : (command rd imm).wf = true) :
    decode (ruleWordI (low.setWidth 64) rd imm) = .ok (command rd imm) := by
  obtain ⟨hrd, himm⟩ := encodeI_fields low rd imm
  rw [ruleWordI_eq_encodeI, decode_eq_ok_iff]
  refine ⟨upper_setWidth _, _, hrow, ?_, ?_, ?_⟩ <;> rw [lower_setWidth]
  · exact (Row.fits_iff ..).mpr (encodeI_mask low rd imm)
  · simpa only [fieldsOf, hrd, himm] using hwf
  · simp only [fieldsOf, hrd, himm]

theorem decode_ldiU (rd : RegId) (imm : BitVec 16) : decode (ruleWordI 0x20 rd imm) = .ok (.ldiU rd imm) :=
  decode_ruleWordI (low := 0x20) (command := .ldiU) (List.mem_of_getElem? (i := 25) rfl) rd imm rfl

theorem decode_ldiS (rd : RegId) (imm : BitVec 16) : decode (ruleWordI 0x60 rd imm) = .ok (.ldiS rd imm) :=
  decode_ruleWordI (low := 0x60) (command := .ldiS) (List.mem_of_getElem? (i := 26) rfl) rd imm rfl

end Sys2Proof

namespace Sys2Proof.Machine

/-! ### CMP (R701, R702) -/

/-- The comparator's limb scan gives the order of the unsigned values. -/
theorem exec_cmpU (ra rb : RegId) (s : State) : exec (.cmpU ra rb) s =
    .next (s.setCmp (compare (uval (s.x ra)) (uval (s.x rb)))).succeed := by
  rw [← compareU_eq]
  rfl

/-- The scan with both signs flipped gives the order of the signed values. -/
theorem exec_cmpS (ra rb : RegId) (s : State) : exec (.cmpS ra rb) s =
    .next (s.setCmp (compare (sval (s.x ra)) (sval (s.x rb)))).succeed := by
  rw [← compareS_eq]
  rfl

section
variable {α : Type} [LinearOrder α] {y z : α}

theorem cmpCode_compare_of_eq (h : y = z) : cmpCode (compare y z) = 0b00 := by
  rw [compare_eq_iff_eq.mpr h, cmpCode]

theorem cmpCode_compare_of_lt (h : y < z) : cmpCode (compare y z) = 0b01 := by
  rw [compare_lt_iff_lt.mpr h, cmpCode]

theorem cmpCode_compare_of_gt (h : z < y) : cmpCode (compare y z) = 0b10 := by
  rw [compare_gt_iff_gt.mpr h, cmpCode]

end

/-- Settles O38: CMP gets the code of the comparison of the unsigned values, and no register is written. -/
theorem cmpUWritesTheUnsignedOrder : Obligations.CmpUWritesTheUnsignedOrder := fun ra rb s =>
  ⟨decode_cmpU ra rb, _, exec_cmpU ra rb s, cmpCode_compare_of_eq, cmpCode_compare_of_lt, cmpCode_compare_of_gt, rfl,
    doneWriting_none ..⟩

/-- Settles O39: CMP gets the code of the comparison of the signed values, and no register is written. -/
theorem cmpSWritesTheSignedOrder : Obligations.CmpSWritesTheSignedOrder := fun ra rb s =>
  ⟨decode_cmpS ra rb, _, exec_cmpS ra rb s, cmpCode_compare_of_eq, cmpCode_compare_of_lt, cmpCode_compare_of_gt, rfl,
    doneWriting_none ..⟩

/-! ### LDI (R703) -/

theorem exec_ldiU (rd : RegId) (imm : BitVec 16) (s : State) : exec (.ldiU rd imm) s =
    .next (s.setX rd (immU imm)).succeed := rfl

theorem exec_ldiS (rd : RegId) (imm : BitVec 16) (s : State) : exec (.ldiS rd imm) s =
    .next (s.setX rd (immS imm)).succeed := rfl

theorem uval_immU (imm : BitVec 16) : uval (immU imm) = imm.toNat :=
  BitVec.toNat_setWidth_of_le (by norm_num)

theorem sval_immS (imm : BitVec 16) : sval (immS imm) = imm.toInt := by
  rw [sval_toInt, immS, BitVec.toInt_signExtend_of_le (by norm_num)]

/-- Settles O40: rd reads back the extended immediate, and each extension keeps its reading of the 16 bits. -/
theorem ldiWritesTheExtendedImmediate : Obligations.LdiWritesTheExtendedImmediate := by
  intro rd imm s
  refine ⟨decode_ldiU rd imm, decode_ldiS rd imm, ?_, ?_⟩
  · refine ⟨_, exec_ldiU rd imm s, ?_, rfl, rfl, doneWriting_one ..⟩
    rw [x_succeed, x_setX_self, uval_immU]
  · refine ⟨_, exec_ldiS rd imm s, ?_, rfl, rfl, doneWriting_one ..⟩
    rw [x_succeed, x_setX_self, sval_immS]

end Sys2Proof.Machine
end

section
/-! PROOFS. 48_host_conversions: the constants (R750), and the four limb writes of a value (R752). -/

namespace Sys2Proof.Machine

/-! ### The constants (R750) -/

theorem sval_of_uval_lt {v : Value} (h : uval v < 2 ^ 255) : sval v = uval v := by
  rw [sval_eq, if_neg (mt (isNeg_iff v).mp (Nat.not_le.mpr h))]

theorem sval_of_le_uval {v : Value} (h : 2 ^ 255 ≤ uval v) : sval v = (uval v : Int) - 2 ^ 256 := by
  rw [sval_eq, if_pos ((isNeg_iff v).mpr h)]

theorem uval_zeroValue : uval zeroValue = 0 := (ofLimbs_toNat ..).trans (by decide)

theorem uval_oneValue : uval oneValue = 1 := (ofLimbs_toNat ..).trans (by decide)

theorem uval_maxUnsigned : uval maxUnsigned = 2 ^ 256 - 1 := (ofLimbs_toNat ..).trans (by decide)

theorem uval_minSigned : uval minSigned = 2 ^ 255 := (ofLimbs_toNat ..).trans (by decide)

theorem uval_maxSigned : uval maxSigned = 2 ^ 255 - 1 := (ofLimbs_toNat ..).trans (by decide)

/-- Settles O55: a constant is given by its limbs, which give its unsigned value (R8); the signed value is the same below
2^255, and 2^256 less from there on. -/
theorem constantsHaveTheirValues : Obligations.ConstantsHaveTheirValues := by
  refine ⟨⟨uval_zeroValue, ?_, toLimbs_ofLimbs ..⟩, ⟨uval_oneValue, ?_, toLimbs_ofLimbs ..⟩,
    ⟨uval_zeroValue, uval_maxUnsigned, toLimbs_ofLimbs ..⟩, ⟨?_, toLimbs_ofLimbs ..⟩, ⟨?_, toLimbs_ofLimbs ..⟩⟩
  · rw [sval_of_uval_lt (by rw [uval_zeroValue]; norm_num), uval_zeroValue, Nat.cast_zero]
  · rw [sval_of_uval_lt (by rw [uval_oneValue]; norm_num), uval_oneValue, Nat.cast_one]
  · rw [sval_of_le_uval uval_minSigned.ge, uval_minSigned]; norm_num
  · rw [sval_of_uval_lt (by rw [uval_maxSigned]; norm_num), uval_maxSigned]; norm_num

/-! ### The four limb writes (R752) -/

/-- At BUSY = 0 the first event of a run, a write of a limb, writes the limb and nothing else (R203). -/
theorem run_limbWrite_idle {s : State} {i : RegId} {j : LimbId} {v : Word} {es : List Event} (k : Nat) (hinv : s.Inv)
    (hidle : s.inflight = none) (he : s.events = .hostWrite (limbOffset i j) .b8 v :: es) :
    core.run (k + 1) s = core.run k (State.setLimb { s with events := es } i j v) := by
  apply core_run_succ
  rw [step_hostWrite hinv he, hostWrite_of_target (accessTarget_of_toNat (limbOffset_toNat i j)),
    writeTarget_limb_idle { s with events := es } v i j hidle]

/-- A register's four limb writes, one after the other, are its write as a whole. -/
theorem setLimb_four (s : State) (i : RegId) (v : Value) :
    (((s.setLimb i 0 (limb v 0)).setLimb i 1 (limb v 1)).setLimb i 2 (limb v 2)).setLimb i 3 (limb v 3) = s.setX i v := by
  have hlimbs : (((s.regs[i.val].set 0 ⟨limb v 0, true⟩).set 1 ⟨limb v 1, true⟩).set 2 ⟨limb v 2, true⟩).set 3
      ⟨limb v 3, true⟩ = writtenLimbs v := by
    ext j hj : 1
    match j, hj with
    | 0, _ | 1, _ | 2, _ | 3, _ => simp [writtenLimbs]
  simp [State.setLimb, State.setX, ← hlimbs]

/-- WR(i, v) at BUSY = 0 does what a command's write of v to Ri does to the registers, and nothing else. -/
theorem run_writeRegister {s : State} {i : RegId} {v : Value} (hinv : s.Inv) (hidle : s.inflight = none)
    (he : s.events = writeRegister i v) : core.run 4 s = .next (State.setX { s with events := [] } i v) := by
  calc core.run 4 s
    _ = core.run 3 _ := run_limbWrite_idle 3 hinv hidle he
    _ = core.run 2 _ := run_limbWrite_idle 2 hinv hidle rfl
    _ = core.run 1 _ := run_limbWrite_idle 1 hinv hidle rfl
    _ = core.run 0 _ := run_limbWrite_idle 0 hinv hidle rfl
    _ = .next _ := congrArg Host.Outcome.next (setLimb_four { s with events := [] } i v)

/-- Settles O57: the four writes are one write of enc(z) to Ri, which reads back with the value z mod 2^256. -/
theorem writingFourLimbsWritesTheValue : Obligations.WritingFourLimbsWritesTheValue := by
  intro s i z hinv hidle he
  have hx : (State.setX { s with events := [] } i (enc z)).x i = enc z := x_setX_self ..
  have huval : (uval ((State.setX { s with events := [] } i (enc z)).x i) : Int) = z % 2 ^ 256 := by rw [hx, uval_enc]
  exact ⟨_, run_writeRegister hinv hidle he, hx, huval,
    fun _ j hr => limbAt_setX_ne { s with events := [] } (enc z) j hr, rfl⟩

end Sys2Proof.Machine
end

section
/-! PROOFS. 70_reset_and_hazards: one step taken apart once, into the rules of R908, and what every step keeps. -/

namespace Sys2Proof.Machine

/-! ### The event taken off the list (log 3) -/

/-- The state with its next event taken off the list, which every step starts from. -/
def State.advance (s : State) : State := { s with events := s.events.tail }

theorem advance_of_event {s : State} {e : Event} {es : List Event} (he : s.events = e :: es) :
    s.advance = { s with events := es } := by
  rw [State.advance, he, List.tail_cons]

theorem advance_of_no_event {s : State} (he : s.events = []) : s.advance = s := by
  rw [State.advance, he, List.tail_nil, ← he]

/-- CORE's own step comes next: its event, or no event at all (log 6). -/
def State.CompletionNext (s : State) : Prop := s.events = [] ∨ ∃ es, s.events = .complete :: es

theorem step_of_completionNext {s : State} (hinv : s.Inv) (hnext : s.CompletionNext) :
    step s = completeInflight s.advance := by
  obtain he | ⟨es, he⟩ := hnext
  · rw [step_of_inv hinv, runNext, he, advance_of_no_event he]
  · rw [step_of_event hinv he, advance_of_event he, runEvent]

theorem completeInflight_idle {s : State} (h : s.inflight = none) : completeInflight s = .next s := by
  rw [completeInflight, h]

theorem completeInflight_busy {s : State} {W : Word} (h : s.inflight = some W) :
    completeInflight s = completeWord W s := by
  rw [completeInflight, h]

theorem step_of_completion {s : State} {W : Word} (hinv : s.Inv) (hnext : s.CompletionNext)
    (hW : s.inflight = some W) : step s = completeWord W s.advance :=
  (step_of_completionNext hinv hnext).trans (completeInflight_busy hW)

/-- The next event is a completion or there is none, or it is one of the other three kinds (R908). -/
theorem events_cases (s : State) : s.CompletionNext ∨ (∃ es, s.events = .reset :: es) ∨
    (∃ off z v es, s.events = .hostWrite off z v :: es) ∨ ∃ off z es, s.events = .hostRead off z :: es := by
  rcases he : s.events with _ | ⟨_ | _ | _ | _, es⟩
  · exact .inl (.inl he)
  · exact .inr (.inr (.inl ⟨_, _, _, _, rfl⟩))
  · exact .inr (.inr (.inr ⟨_, _, _, rfl⟩))
  · exact .inl (.inr ⟨es, he⟩)
  · exact .inr (.inl ⟨es, rfl⟩)

/-! ### The rules of a step -/

/-- The offset of a limb, from the limb (R200). -/
theorem toNat_of_accessTarget_limb {off : Offset} {z : AccessSize} {i : RegId} {j : LimbId}
    (h : accessTarget off z = some (.limb i j)) : off.toNat = 0x20 * i.val + 8 * j.val := by
  obtain ⟨-, haligned, -⟩ := accessTarget_some h
  rw [accessTarget] at h
  split at h
  · cases h
  · split at h
    · cases h
      simp only [Fin.val_ofNat]
      omega
    · split at h <;> cases h

/-- What a step from `s` does, a rule for each effect R908 gives the host's accesses, the reset input and CORE's
completion. `step_transition` ties it to step. -/
inductive Transition (s : State) : State → Prop
  /-- R201: an access that is not defined. -/
  | undefinedWrite {off z v es} (he : s.events = .hostWrite off z v :: es) (hnone : accessTarget off z = none) :
      Transition s { s.advance with berr := true }
  /-- R203 at BUSY = 0. -/
  | limbWrite {off v es i j} (he : s.events = .hostWrite off .b8 v :: es)
      (hoff : off.toNat = 0x20 * i.val + 8 * j.val) (hidle : s.inflight = none) :
      Transition s (s.advance.setLimb i j v)
  /-- R107 at BUSY = 0. -/
  | issue {v es} (he : s.events = .hostWrite 0x200 .b8 v :: es) (hidle : s.inflight = none) :
      Transition s { s.advance with inflight := some v }
  /-- R107 and R203 at BUSY = 1. -/
  | droppedWrite {off v es} (he : s.events = .hostWrite off .b8 v :: es) (haligned : off.toNat % 8 = 0)
      (hoff : off.toNat ≤ 0x200) (hbusy : s.inflight ≠ none) : Transition s { s.advance with ovr := true }
  /-- R108. -/
  | statusWrite {v es} (he : s.events = .hostWrite 0x208 .b8 v :: es) : Transition s (s.advance.writeStatus v)
  /-- R201, R203 and R205: a read, of whatever. -/
  | read {off z es} (he : s.events = .hostRead off z :: es) : Transition s (s.advance.hostRead off z)
  /-- R900. -/
  | reset {es} (he : s.events = .reset :: es) : Transition s s.advance.hardwareReset
  /-- R106 and R802: the word in flight completes with an error. -/
  | raised {W e} (hnext : s.CompletionNext) (hW : s.inflight = some W) : Transition s (s.advance.raise e)
  /-- R106: the word in flight completes with its command's writes. -/
  | committed {W i t} (hnext : s.CompletionNext) (hW : s.inflight = some W) (hdecode : decode W = .ok i)
      (hcommitted : Committed i s.advance t) : Transition s t
  /-- Nothing in flight and nothing to do (log 12). -/
  | idle (hnext : s.CompletionNext) (hidle : s.inflight = none) : Transition s s.advance

theorem hostWrite_transition {s : State} {off : Offset} {z : AccessSize} {v : Word} {es : List Event}
    (he : s.events = .hostWrite off z v :: es) : Transition s (s.advance.hostWrite off z v) := by
  cases ht : accessTarget off z with
  | none =>
    rw [hostWrite_of_no_target ht]
    exact .undefinedWrite he ht
  | some target =>
    obtain ⟨rfl, haligned, hwhere⟩ := accessTarget_some ht
    rw [hostWrite_of_target ht]
    rcases hwhere with ⟨i, j, rfl, hoff⟩ | ⟨rfl, rfl⟩ | ⟨rfl, rfl⟩
    · by_cases hidle : s.inflight = none
      · rw [writeTarget_limb_idle s.advance v i j hidle]
        exact .limbWrite he (toNat_of_accessTarget_limb ht) hidle
      · rw [writeTarget_limb_busy s.advance v i j hidle]
        exact .droppedWrite he haligned hoff.le hidle
    · by_cases hidle : s.inflight = none
      · rw [writeTarget_cmd_idle s.advance v hidle]
        exact .issue he hidle
      · rw [writeTarget_cmd_busy s.advance v hidle]
        exact .droppedWrite he haligned le_rfl hidle
    · exact .statusWrite he

theorem completion_transition {s t : State} (hnext : s.CompletionNext) (h : completeInflight s.advance = .next t) :
    Transition s t := by
  cases hW : s.inflight with
  | none =>
    cases (completeInflight_idle (s := s.advance) hW).symm.trans h
    exact .idle hnext hW
  | some W =>
    rw [completeInflight_busy (s := s.advance) hW] at h
    obtain ⟨e, hword⟩ | ⟨i, u, hdecode, hword, hcommitted⟩ := completeWord_ends W s.advance
    · obtain rfl := Host.Outcome.next.inj (hword.symm.trans h)
      exact .raised hnext hW
    · obtain rfl := Host.Outcome.next.inj (hword.symm.trans h)
      exact .committed hnext hW hdecode hcommitted

/-- A step that answers a next state starts in the invariant and follows one of the rules. -/
theorem step_transition {s t : State} (h : step s = .next t) : s.Inv ∧ Transition s t := by
  have hinv : s.Inv := (inv_of_step_next h).1
  refine ⟨hinv, ?_⟩
  obtain hnext | ⟨es, he⟩ | ⟨off, z, v, es, he⟩ | ⟨off, z, es, he⟩ := events_cases s
  · rw [step_of_completionNext hinv hnext] at h
    exact completion_transition hnext h
  · rw [step_of_event hinv he, ← advance_of_event he, runEvent] at h
    cases h
    exact .reset he
  · rw [step_hostWrite hinv he, ← advance_of_event he] at h
    cases h
    exact hostWrite_transition he
  · rw [step_hostRead hinv he, ← advance_of_event he] at h
    cases h
    exact .read he

/-! ### The status invariant (R108; 93 U14) -/

/-- Settles O2: the reset column of R108's table. -/
theorem resetMeetsTheStatusInvariant : Obligations.ResetMeetsTheStatusInvariant := ⟨by decide, by decide⟩

/-- Settles O3: only a completion and the reset input write CMP or ERR, the one a code of the table, the other 0. -/
theorem stepKeepsTheStatusInvariant : Obligations.StepKeepsTheStatusInvariant := by
  intro s t _ h
  obtain ⟨⟨hcmp, herr⟩, htrans⟩ := step_transition h
  cases htrans with
  | undefinedWrite | limbWrite | issue | droppedWrite | statusWrite | read | idle => exact ⟨hcmp, herr⟩
  | reset => exact resetMeetsTheStatusInvariant
  | raised => exact ⟨hcmp, ErrCode.code_le _⟩
  | committed _ _ _ hcommitted =>
    obtain ⟨-, -, hnone, -⟩ := hcommitted.done
    exact ⟨hcommitted.cmp_legal hcmp, by rw [hnone]; decide⟩

/-- From the invariant there is a next state, whatever comes next (R800). -/
theorem exists_next_of_inv {s : State} (hinv : s.Inv) : ∃ t, step s = .next t := by
  obtain hnext | ⟨es, he⟩ | ⟨off, z, v, es, he⟩ | ⟨off, z, es, he⟩ := events_cases s
  · cases hW : s.inflight with
    | none => exact ⟨s.advance, (step_of_completionNext hinv hnext).trans (completeInflight_idle hW)⟩
    | some W =>
      rw [step_of_completion hinv hnext hW]
      obtain ⟨e, hword⟩ | ⟨i, t, -, hword, -⟩ := completeWord_ends W s.advance
      · exact ⟨_, hword⟩
      · exact ⟨_, hword⟩
  · exact ⟨_, step_of_event hinv he⟩
  · exact ⟨_, step_hostWrite hinv he⟩
  · exact ⟨_, step_hostRead hinv he⟩

/-- Settles O4: on the invariant the next event runs, and every event answers; off it the STATUS check faults. -/
theorem stepAnswersNextExactlyOnTheInvariant : Obligations.StepAnswersNextExactlyOnTheInvariant := by
  refine fun s => ⟨exists_next_of_inv, fun hbad => ?_⟩
  rw [step, if_neg (mt (statusLegal_iff s).mp hbad)]

/-! ### The completion of the word in flight (R106) -/

theorem completeWord_of_decode {W : Word} {i : Instr} (h : decode W = .ok i) (s : State) :
    completeWord W s = exec i s := by
  rw [completeWord, h]

theorem decode_tableWord {nbits w : Nat} {i : Instr} (h : decodeTableWord nbits w = some i) :
    decode (tableWord nbits w) = .ok i := by
  rw [decodeTableWord] at h
  split at h
  · next hdecode => rw [hdecode, Option.some.inj h]
  · cases h

/-- Settles O5: each of the three puts the word in flight with its completion next, and a completion is the decoded
command's exec. -/
theorem stepRunsTheDecodedCommand : Obligations.StepRunsTheDecodedCommand := by
  refine ⟨fun s W i es hinv hW hi he => ?_, fun s W i hinv hW hi he => ?_, fun s nbits w i hinv hi => ?_⟩
  · rw [step_of_completion hinv (.inr ⟨es, he⟩) hW, advance_of_event he, completeWord_of_decode hi]
  · rw [step_of_completion hinv (.inl he) hW, advance_of_no_event he, completeWord_of_decode hi]
  · have hinv' : (s.withFetchWord nbits w).Inv := hinv
    have hnext : (s.withFetchWord nbits w).CompletionNext := .inr ⟨s.events, rfl⟩
    rw [step_of_completion hinv' hnext rfl, completeWord_of_decode (decode_tableWord hi)]
    rfl

/-! ### The reset input (R900) -/

theorem step_reset {s : State} {es : List Event} (hinv : s.Inv) (he : s.events = .reset :: es) :
    step s = .next (State.hardwareReset { s with events := es }) := step_of_event hinv he

/-- Settles O60: the reset input keeps the three fields that are the model's own. -/
theorem resetInputKeepsTheHostSide : Obligations.ResetInputKeepsTheHostSide :=
  fun _ _ hinv he => ⟨_, step_reset hinv he, rfl, rfl, rfl⟩

theorem limbAt_reset (i : RegId) (j : LimbId) : State.reset.limbAt i j = Limb.unwritten := by
  simp [State.limbAt, State.reset]

theorem written_of_allWritten {s : State} {i : RegId} (h : s.allWritten i = true) (j : LimbId) :
    (s.limbAt i j).written = true := by
  simp only [State.allWritten, Bool.and_eq_true] at h
  obtain ⟨⟨⟨h0, h1⟩, h2⟩, h3⟩ := h
  match j with
  | 0 => exact h0
  | 1 => exact h1
  | 2 => exact h2
  | 3 => exact h3

/-- Only the reset input takes a limb's value away. -/
theorem transition_keeps_written {s t : State} {i : RegId} {j : LimbId} (htrans : Transition s t)
    (hnoreset : ∀ es, s.events ≠ .reset :: es) (hw : (s.limbAt i j).written = true) :
    (t.limbAt i j).written = true := by
  cases htrans with
  | undefinedWrite | issue | droppedWrite | statusWrite | read | raised | idle => exact hw
  | limbWrite =>
    rw [limbAt_setLimb]
    split
    · rfl
    · exact hw
  | reset he => exact absurd he (hnoreset _)
  | @committed _ command _ _ _ _ hcommitted =>
    obtain ⟨hothers, hdests, -⟩ := hcommitted.done
    by_cases hi : i ∈ dests command
    · exact written_of_allWritten (hdests i hi) j
    · rw [hothers i hi j]; exact hw

/-- Settles O1: the reset state is read off its definition, the reset input puts its record there, and no other rule of
a step un-writes a limb. -/
theorem resetHoldsTheStatedState : Obligations.ResetHoldsTheStatedState := by
  refine ⟨⟨rfl, rfl, rfl, rfl, rfl, rfl, rfl, by decide, rfl, fun i j => ?_⟩, fun s es hinv he => ?_,
    fun s t i j hnoreset h hw => ?_⟩
  · rw [limbAt_reset]; rfl
  · exact ⟨_, step_reset hinv he, rfl⟩
  · exact transition_keeps_written (step_transition h).2 hnoreset hw

/-! ### What each field changes by (R102, R105, R108, R807) -/

/-- Settles O48: of the rules of a step, only a completion and the reset input write C, CMP or ERR. -/
theorem flagsChangeOnlyAtCompletion : Obligations.FlagsChangeOnlyAtCompletion := by
  intro s t h hchanged
  obtain ⟨-, htrans⟩ := step_transition h
  cases htrans with
  | undefinedWrite | limbWrite | issue | droppedWrite | statusWrite | read | idle =>
    obtain hc | hc | hc := hchanged <;> exact absurd rfl hc
  | reset he => exact .inl ⟨_, he⟩
  | raised hnext hW => exact .inr ⟨by rw [hW]; nofun, rfl, hnext⟩
  | committed hnext hW _ hcommitted =>
    obtain ⟨-, -, -, hnone, -⟩ := hcommitted.done
    exact .inr ⟨by rw [hW]; nofun, hnone, hnext⟩

/-- A sticky bit before and after a step: as it was, or 0 by a cause that clears it, or 1 by a cause that sets it. -/
def StickyChange (before after : Bool) (clears sets : Prop) : Prop :=
  after = before ∨ (after = false ∧ clears) ∨ (after = true ∧ sets)

theorem StickyChange.falls {before after : Bool} {clears sets : Prop} (h : StickyChange before after clears sets)
    (hbefore : before = true) (hafter : after = false) : clears := by
  obtain hkept | ⟨-, hclears⟩ | ⟨hset, -⟩ := h
  · exact nomatch (hafter.symm.trans hkept).trans hbefore
  · exact hclears
  · exact nomatch hafter.symm.trans hset

theorem StickyChange.rises {before after : Bool} {clears sets : Prop} (h : StickyChange before after clears sets)
    (hbefore : before = false) (hafter : after = true) : sets := by
  obtain hkept | ⟨hcleared, -⟩ | ⟨-, hsets⟩ := h
  · exact nomatch (hafter.symm.trans hkept).trans hbefore
  · exact nomatch hafter.symm.trans hcleared
  · exact hsets

/-- What clears the sticky bit at bit `n` of STATUS: the reset input, or a STATUS write with that bit 1 (R807). -/
def State.ClearsSticky (s : State) (n : Nat) : Prop :=
  (∃ es, s.events = .reset :: es) ∨ ∃ v es, s.events = .hostWrite 0x208 .b8 v :: es ∧ v.getLsbD n = true

/-- The write-1-to-clear rule (R108). -/
theorem stickyChange_statusWrite {s : State} {v : Word} {es : List Event} (he : s.events = .hostWrite 0x208 .b8 v :: es)
    (before : Bool) (n : Nat) (sets : Prop) : StickyChange before (before && !v.getLsbD n) (s.ClearsSticky n) sets := by
  cases hbit : v.getLsbD n with
  | false => exact .inl (Bool.and_true _)
  | true => exact .inr (.inl ⟨Bool.and_false _, .inr ⟨v, es, he, hbit⟩⟩)

theorem transition_esticky {s t : State} (htrans : Transition s t) : StickyChange s.esticky t.esticky (s.ClearsSticky 8)
    (s.inflight ≠ none ∧ t.inflight = none ∧ t.err ≠ 0) := by
  cases htrans with
  | undefinedWrite | limbWrite | issue | droppedWrite | read | idle => exact .inl rfl
  | statusWrite he => exact stickyChange_statusWrite he ..
  | reset he => exact .inr (.inl ⟨rfl, .inl ⟨_, he⟩⟩)
  | raised _ hW => exact .inr (.inr ⟨rfl, by rw [hW]; nofun, rfl, ErrCode.code_ne_zero _⟩)
  | committed _ _ _ hcommitted =>
    obtain ⟨-, -, -, -, hesticky, -⟩ := hcommitted.done
    exact .inl hesticky

theorem transition_ovr {s t : State} (htrans : Transition s t) : StickyChange s.ovr t.ovr (s.ClearsSticky 9)
    (s.inflight ≠ none ∧
      ∃ off v es, s.events = .hostWrite off .b8 v :: es ∧ off.toNat % 8 = 0 ∧ off.toNat ≤ 0x200) := by
  cases htrans with
  | undefinedWrite | limbWrite | issue | read | raised | idle => exact .inl rfl
  | droppedWrite he haligned hoff hbusy => exact .inr (.inr ⟨rfl, hbusy, _, _, _, he, haligned, hoff⟩)
  | statusWrite he => exact stickyChange_statusWrite he ..
  | reset he => exact .inr (.inl ⟨rfl, .inl ⟨_, he⟩⟩)
  | committed _ _ _ hcommitted =>
    obtain ⟨-, -, -, -, -, hovr, -⟩ := hcommitted.done
    exact .inl hovr

theorem transition_berr {s t : State} (htrans : Transition s t) : StickyChange s.berr t.berr (s.ClearsSticky 10)
    (∃ off size es, (s.events = .hostRead off size :: es ∨ ∃ v, s.events = .hostWrite off size v :: es) ∧
      (size ≠ .b8 ∨ off.toNat % 8 ≠ 0 ∨ 0x208 < off.toNat)) := by
  cases htrans with
  | limbWrite | issue | droppedWrite | raised | idle => exact .inl rfl
  | undefinedWrite he hnone =>
    exact .inr (.inr ⟨rfl, _, _, _, .inr ⟨_, he⟩, (accessTarget_none_iff ..).mp hnone⟩)
  | statusWrite he => exact stickyChange_statusWrite he ..
  | @read off z es he =>
    have hberr : (s.advance.hostRead off z).berr = (s.berr || (accessTarget off z).isNone) := rfl
    cases ht : accessTarget off z with
    | none =>
      refine .inr (.inr ⟨?_, _, _, _, .inl he, (accessTarget_none_iff ..).mp ht⟩)
      rw [hberr, ht, Option.isNone_none, Bool.or_true]
    | some target => exact .inl (by rw [hberr, ht, Option.isNone_some, Bool.or_false])
  | reset he => exact .inr (.inl ⟨rfl, .inl ⟨_, he⟩⟩)
  | committed _ _ _ hcommitted =>
    obtain ⟨-, -, -, -, -, -, hberr, -⟩ := hcommitted.done
    exact .inl hberr

/-- Settles O49: the two directions of each bit's change. -/
theorem stickyBitsAreSetAndClearedAsNamed : Obligations.StickyBitsAreSetAndClearedAsNamed := by
  intro s t h
  obtain ⟨-, htrans⟩ := step_transition h
  exact ⟨(transition_esticky htrans).falls, (transition_ovr htrans).falls, (transition_berr htrans).falls,
    (transition_esticky htrans).rises, (transition_ovr htrans).rises, (transition_berr htrans).rises⟩

/-- Settles O53: the rules that write limbs are the limb write, the reset input and the command's writes, which leave
every register alone that is no destination. -/
theorem registersChangeOnlyAsNamed : Obligations.RegistersChangeOnlyAsNamed := by
  intro s t i j h hchanged
  obtain ⟨-, htrans⟩ := step_transition h
  cases htrans with
  | undefinedWrite | issue | droppedWrite | statusWrite | read | raised | idle => exact absurd rfl hchanged
  | @limbWrite off v es r k he hoff hidle =>
    rw [limbAt_setLimb] at hchanged ⊢
    split at hchanged
    · next hsame =>
      obtain ⟨rfl, rfl⟩ := hsame
      exact .inr (.inl ⟨hidle, off, v, es, he, hoff, if_pos ⟨rfl, rfl⟩⟩)
    · exact absurd rfl hchanged
  | reset he => exact .inl ⟨_, he⟩
  | @committed W command _ _ hW hdecode hcommitted =>
    obtain ⟨hothers, -, -, hnone, -⟩ := hcommitted.done
    by_cases hi : i ∈ dests command
    · exact .inr (.inr ⟨W, command, hW, hnone, hdecode, hi⟩)
    · exact absurd (hothers i hi j) hchanged

/-- Every step takes exactly the next event off the list. -/
theorem transition_events {s t : State} (htrans : Transition s t) : t.events = s.events.tail := by
  cases htrans with
  | undefinedWrite | limbWrite | issue | droppedWrite | statusWrite | read | reset | raised | idle => rfl
  | committed _ _ _ hcommitted =>
    obtain ⟨-, -, -, -, -, -, -, hevents, -⟩ := hcommitted.done
    exact hevents

/-- Settles O54: one rule puts a word in flight, from an idle state; only a completion and the reset input take one
out. -/
theorem oneCommandIsInFlightAtATime : Obligations.OneCommandIsInFlightAtATime := by
  intro s t h
  obtain ⟨-, htrans⟩ := step_transition h
  refine ⟨fun W hidle hW => ?_, fun W hW => ?_, transition_events htrans⟩
  · cases htrans with
    | undefinedWrite | limbWrite | droppedWrite | statusWrite | read | idle => exact nomatch hidle.symm.trans hW
    | issue he => cases hW; exact ⟨_, he⟩
    | reset | raised => exact nomatch hW
    | committed _ hW' => exact nomatch hidle.symm.trans hW'
  · cases htrans with
    | undefinedWrite | limbWrite | droppedWrite | statusWrite | read => exact .inl hW
    | issue _ hidle => exact nomatch hidle.symm.trans hW
    | reset he => exact .inr ⟨rfl, .inl ⟨_, he⟩⟩
    | raised hnext => exact .inr ⟨rfl, .inr hnext⟩
    | committed hnext _ _ hcommitted =>
      obtain ⟨-, -, -, hnone, -⟩ := hcommitted.done
      exact .inr ⟨hnone, .inr hnext⟩
    | idle => exact .inl hW

/-! ### Completion in the end (R907, R908) -/

/-- A completed word is no longer in flight, however it ended (R106). -/
theorem inflight_of_completeWord {W : Word} {s t : State} (h : completeWord W s = .next t) : t.inflight = none := by
  obtain ⟨e, hword⟩ | ⟨i, u, -, hword, hcommitted⟩ := completeWord_ends W s
  · cases hword.symm.trans h; rfl
  · cases hword.symm.trans h
    obtain ⟨-, -, -, hnone, -⟩ := hcommitted.done
    exact hnone

/-- CORE's own step leaves nothing in flight. -/
theorem inflight_of_completionNext {s t : State} (hnext : s.CompletionNext) (h : step s = .next t) :
    t.inflight = none := by
  have hinv : s.Inv := (step_transition h).1
  cases hW : s.inflight with
  | none =>
    rw [step_of_completionNext hinv hnext, completeInflight_idle (s := s.advance) hW] at h
    cases h
    exact hW
  | some W =>
    rw [step_of_completion hinv hnext hW] at h
    exact inflight_of_completeWord h

/-- One step more than there are events leaves no event and nothing in flight. -/
theorem run_settles (n : Nat) : ∀ s : State, s.Inv → s.events.length = n →
    ∃ t, core.run (n + 1) s = .next t ∧ t.events = [] ∧ t.inflight = none := by
  induction n with
  | zero =>
    intro s hinv hlength
    have he : s.events = [] := List.length_eq_zero_iff.mp hlength
    obtain ⟨t, ht⟩ := exists_next_of_inv hinv
    refine ⟨t, core_run_succ 0 ht, ?_, inflight_of_completionNext (.inl he) ht⟩
    rw [transition_events (step_transition ht).2, he, List.tail_nil]
  | succ n ih =>
    intro s hinv hlength
    obtain ⟨s', hs'⟩ := exists_next_of_inv hinv
    have hlength' : s'.events.length = n := by
      rw [transition_events (step_transition hs').2, List.length_tail, hlength, Nat.add_sub_cancel]
    obtain ⟨t, hrun, ht⟩ := ih s' (stepKeepsTheStatusInvariant s s' hinv hs') hlength'
    exact ⟨t, (core_run_succ _ hs').trans hrun, ht⟩

/-- While a word is in flight, a step that is neither its completion nor the reset input keeps it, the registers, C, CMP
and ERR. -/
theorem transition_keeps_inflight {s t : State} {W : Word} (htrans : Transition s t) (hW : s.inflight = some W)
    (hnext : ¬ s.CompletionNext) (hnoreset : ∀ es, s.events ≠ .reset :: es) :
    t.inflight = some W ∧ t.regs = s.regs ∧ t.c = s.c ∧ t.cmp = s.cmp ∧ t.err = s.err := by
  cases htrans with
  | undefinedWrite | droppedWrite | statusWrite | read => exact ⟨hW, rfl, rfl, rfl, rfl⟩
  | limbWrite _ _ hidle | issue _ hidle => exact nomatch hidle.symm.trans hW
  | reset he => exact absurd he (hnoreset _)
  | raised hnext' | committed hnext' | idle hnext' => exact absurd hnext' hnext

/-- The run from `s` comes, in at most as many steps as there are events, to a state that still holds W and differs from
`s` only in what host accesses change, and whose step completes W. -/
def State.ReachesCompletion (s : State) (W : Word) : Prop :=
  ∃ (k : Nat) (u t : State), k ≤ s.events.length ∧ core.run k s = .next u ∧
    u.inflight = some W ∧ u.regs = s.regs ∧ u.c = s.c ∧ u.cmp = s.cmp ∧ u.err = s.err ∧
    completeWord W u.advance = .next t ∧ core.run (k + 1) s = .next t ∧ t.inflight = none

theorem reachesCompletion_of_completionNext {s : State} {W : Word} (hinv : s.Inv) (hW : s.inflight = some W)
    (hnext : s.CompletionNext) : s.ReachesCompletion W := by
  obtain ⟨t, ht⟩ := exists_next_of_inv hinv
  have hword : completeWord W s.advance = .next t := by rw [← step_of_completion hinv hnext hW, ht]
  exact ⟨0, s, t, Nat.zero_le _, rfl, hW, rfl, rfl, rfl, rfl, hword, core_run_succ 0 ht,
    inflight_of_completeWord hword⟩

theorem reachesCompletion (n : Nat) : ∀ (s : State) (W : Word), s.Inv → s.inflight = some W →
    Event.reset ∉ s.events → s.events.length = n → s.ReachesCompletion W := by
  induction n with
  | zero =>
    intro s W hinv hW _ hlength
    exact reachesCompletion_of_completionNext hinv hW (.inl (List.length_eq_zero_iff.mp hlength))
  | succ n ih =>
    intro s W hinv hW hnoreset hlength
    by_cases hnext : s.CompletionNext
    · exact reachesCompletion_of_completionNext hinv hW hnext
    obtain ⟨s', hs'⟩ := exists_next_of_inv hinv
    obtain ⟨-, htrans⟩ := step_transition hs'
    have hevents : s'.events = s.events.tail := transition_events htrans
    have hlength' : s'.events.length = n := by rw [hevents, List.length_tail, hlength, Nat.add_sub_cancel]
    obtain ⟨hW', hregs', hc', hcmp', herr'⟩ := transition_keeps_inflight htrans hW hnext
      fun es he => hnoreset (he ▸ List.mem_cons_self)
    have hnoreset' : Event.reset ∉ s'.events := hevents ▸ mt List.mem_of_mem_tail hnoreset
    obtain ⟨k, u, t, hk, hrun, huW, hregs, hc, hcmp, herr, hword, hrun', hnone⟩ :=
      ih s' W (stepKeepsTheStatusInvariant s s' hinv hs') hW' hnoreset' hlength'
    exact ⟨k + 1, u, t, by omega, (core_run_succ k hs').trans hrun, huW, hregs.trans hregs', hc.trans hc',
      hcmp.trans hcmp', herr.trans herr', hword, (core_run_succ (k + 1) hs').trans hrun', hnone⟩

/-- Settles O52: both by induction on the number of events, a step taking one off; only a completion or the reset input
takes the word out of flight. -/
theorem everyIssuedCommandCompletes : Obligations.EveryIssuedCommandCompletes :=
  ⟨fun s hinv => run_settles _ s hinv rfl, fun s W hinv hW hnoreset => reachesCompletion _ s W hinv hW hnoreset rfl⟩

end Sys2Proof.Machine
end

section
/-! PROOFS. 41_multiply: MUL (R451). -/

namespace Sys2Proof

theorem decode_mulU (rd ra rb : RegId) : decode (ruleWord 0x03 rd ra rb 0) = .ok (.mulU rd ra rb) :=
  decode_ruleWord_threeReg (low := 0x03) (command := .mulU) (List.mem_of_getElem? (i := 4) rfl) rd ra rb rfl

theorem decode_mulS (rd ra rb : RegId) : decode (ruleWord 0x43 rd ra rb 0) = .ok (.mulS rd ra rb) :=
  decode_ruleWord_threeReg (low := 0x43) (command := .mulS) (List.mem_of_getElem? (i := 5) rfl) rd ra rb rfl

end Sys2Proof

namespace Sys2Proof.Machine

theorem enc_mul (y z : Int) : enc (y * z) = enc y * enc z := BitVec.ofInt_mul y z

theorem mulCommand_eq (rd ra rb : RegId) (s : State) :
    mulCommand rd ra rb s = .next (s.setX rd (s.x ra * s.x rb)).succeed := by
  rw [mulCommand, lowHalf_mulWide, writeOne]

/-- Settles O17: both types run one command, which writes the wrapped product of the patterns; uval and sval give the
same one, since enc takes each back to its pattern and products to products. -/
theorem mulWritesLowProduct : Obligations.MulWritesLowProduct := by
  intro rd ra rb s
  refine ⟨decode_mulU rd ra rb, decode_mulS rd ra rb, fun i hi => ?_⟩
  have hexec : exec i s = mulCommand rd ra rb s := by
    obtain rfl | rfl := List.mem_pair.mp hi
    · rfl
    · rfl
  refine ⟨_, hexec.trans (mulCommand_eq rd ra rb s), ?_, ?_, rfl, rfl, doneWriting_one ..⟩
  · rw [x_succeed, x_setX_self, enc_mul, enc_uval, enc_uval]
  · rw [x_succeed, x_setX_self, enc_mul, enc_sval, enc_sval]

end Sys2Proof.Machine
end

section
/-! PROOFS. 30_encoding: decoding and encoding are inverse to each other (R310, R312). -/

namespace Sys2Proof

/-! ### Decode of encode -/

section
variable {low : BitVec 8} {i : Instr}

theorem decode_encode3R {rd ra rb : RegId} (h : decode (ruleWord (low.setWidth 64) rd ra rb 0) = .ok i) :
    decode ((encode3R low rd ra rb).setWidth 64) = .ok i := by
  rwa [← encode4R_zero, ← ruleWord_eq_encode4R]

theorem decode_encode4R {rd ra rb rm : RegId} (h : decode (ruleWord (low.setWidth 64) rd ra rb rm) = .ok i) :
    decode ((encode4R low rd ra rb rm).setWidth 64) = .ok i := by
  rwa [← ruleWord_eq_encode4R]

theorem decode_encodeC {ra rb : RegId} (h : decode (ruleWord (low.setWidth 64) 0 ra rb 0) = .ok i) :
    decode ((encodeC low ra rb).setWidth 64) = .ok i := by
  rw [← encode3R_zero]
  exact decode_encode3R h

theorem decode_encodeI {rd : RegId} {imm : BitVec 16} (h : decode (ruleWordI (low.setWidth 64) rd imm) = .ok i) :
    decode ((encodeI low rd imm).setWidth 64) = .ok i := by
  rwa [← ruleWordI_eq_encodeI]

end

/-- Settles O9: a command's encoding is its rule's word, and each rule's word decodes to its command. -/
theorem decodeOfEncodeIsTheCommand : Obligations.DecodeOfEncodeIsTheCommand := by
  intro i hwf
  cases i with
  | addU => exact decode_encode3R (low := 0x01) (decode_addU ..)
  | addS => exact decode_encode3R (low := 0x41) (decode_addS ..)
  | subU => exact decode_encode3R (low := 0x02) (decode_subU ..)
  | subS => exact decode_encode3R (low := 0x42) (decode_subS ..)
  | mulU => exact decode_encode3R (low := 0x03) (decode_mulU ..)
  | mulS => exact decode_encode3R (low := 0x43) (decode_mulS ..)
  | divU => exact decode_encode3R (low := 0x04) (decode_divU ..)
  | divS => exact decode_encode3R (low := 0x44) (decode_divS ..)
  | addmodU => exact decode_encode4R (low := 0x05) (decode_addmodU ..)
  | addmodS => exact decode_encode4R (low := 0x45) (decode_addmodS ..)
  | submodS => exact decode_encode4R (low := 0x46) (decode_submodS ..)
  | mulmodU => exact decode_encode4R (low := 0x07) (decode_mulmodU ..)
  | mulmodS => exact decode_encode4R (low := 0x47) (decode_mulmodS ..)
  | expU => exact decode_encode3R (low := 0x08) (decode_expU ..)
  | expS => exact decode_encode3R (low := 0x48) (decode_expS ..)
  | expmodU => exact decode_encode4R (low := 0x09) (decode_expmodU ..)
  | expmodS => exact decode_encode4R (low := 0x49) (decode_expmodS ..)
  | shlU => exact decode_encode3R (low := 0x0A) (decode_shlU ..)
  | shlS => exact decode_encode3R (low := 0x4A) (decode_shlS ..)
  | shrU => exact decode_encode3R (low := 0x0B) (decode_shrU ..)
  | shrS => exact decode_encode3R (low := 0x4B) (decode_shrS ..)
  | cmpU => exact decode_encodeC (low := 0x0C) (decode_cmpU ..)
  | cmpS => exact decode_encodeC (low := 0x4C) (decode_cmpS ..)
  | mulw => exact decode_encode4R (low := 0x10) (decode_mulw (of_decide_eq_true hwf) ..)
  | divmod => exact decode_encode4R (low := 0x11) (decode_divmod (of_decide_eq_true hwf) ..)
  | ldiU => exact decode_encodeI (low := 0x20) (decode_ldiU ..)
  | ldiS => exact decode_encodeI (low := 0x60) (decode_ldiS ..)

/-! ### Encode of decode (R312) -/

/-- The word of a format from its low byte and its fields (R302 to R304); `rows_encode` ties it to the commands. -/
def Format.encode (format : Format) (low : BitVec 8) (f : Fields) : BitVec 32 :=
  match format with
  | .threeReg => encode3R low f.rd f.ra f.rb
  | .fourReg => encode4R low f.rd f.ra f.rb f.rm
  | .compare => encodeC low f.ra f.rb
  | .immediate => encodeI low f.rd f.imm16

/-- A row's command is encoded in the row's format, with the row's low byte. -/
theorem rows_encode : ∀ row ∈ opcodeTable, ∀ f : Fields,
    encodeCommand (row.build f) = row.format.encode (row.pattern.extractLsb' 0 8) f := by
  simp [opcodeTable, arithmeticRows, modularRows, exponentRows, shiftRows, compareRows, twoDestRows, loadRows,
    encodeCommand, Format.encode]

/-- A format's mask fixes every bit that is no operand, so the word is its fields in the format. -/
theorem Format.encode_fieldsOf (format : Format) {w : BitVec 32} {low : BitVec 8}
    (h : w &&& format.mask = low.setWidth 32) : format.encode low (fieldsOf w) = w := by
  cases format with
  | threeReg => exact encode3R_of_fields w low h
  | fourReg => exact encode4R_of_fields w low h
  | compare => exact encodeC_of_fields w low h
  | immediate => exact encodeI_of_fields w low h

theorem encodeCommand_build_fieldsOf {row : Row} (hrow : row ∈ opcodeTable) {w : BitVec 32} (hfit : row.fits w = true) :
    encodeCommand (row.build (fieldsOf w)) = w := by
  rw [rows_encode row hrow]
  apply Format.encode_fieldsOf
  rw [(Row.fits_iff row w).mp hfit]
  exact rows_pattern_eq_low row hrow

theorem setWidth_lower_of_upper_eq_zero {W : Word} (h : W.extractLsb' 32 32 = 0) :
    (W.extractLsb' 0 32).setWidth 64 = W := by
  have hupper : W.toNat / 2 ^ 32 % 2 ^ 32 = 0 := by
    simpa [Nat.shiftRight_eq_div_pow] using congrArg BitVec.toNat h
  apply BitVec.eq_of_toNat_eq
  rw [BitVec.toNat_setWidth, BitVec.extractLsb'_toNat, Nat.shiftRight_zero]
  have hW := W.isLt
  omega

/-- Settles O10: the decoder's row gives the command, and by the row's format the lower half is the command's encoding;
the upper half is 0 in both. -/
theorem decodedWordIsItsEncoding : Obligations.DecodedWordIsItsEncoding := by
  intro W i h
  obtain ⟨hupper, row, hrow, hfit, hwf, rfl⟩ := (decode_eq_ok_iff W i).mp h
  refine ⟨hwf, ?_⟩
  rw [encode, encodeCommand_build_fieldsOf hrow hfit, setWidth_lower_of_upper_eq_zero hupper]

/-- Settles O6: the decoder is run on each of the words. -/
theorem exampleWordsDecode : Obligations.ExampleWordsDecode := by
  unfold Obligations.ExampleWordsDecode
  decide +kernel

end Sys2Proof
end

section
/-! PROOFS. 60_exceptions: the outcome of a completion (R801 to R803), and the frame of every command (R102, R108). -/

namespace Sys2Proof.Machine

/-! ### The effect of an error and of its absence (R802) -/

/-- Settles O11: a completion is a raise, whose code is not 0, or commits, with ERR = 0. -/
theorem raiseWritesOnlyTheOutcome : Obligations.RaiseWritesOnlyTheOutcome := by
  intro W s t h
  obtain ⟨e, hword⟩ | ⟨i, u, -, hword, hcommitted⟩ := completeWord_ends W s
  · cases hword.symm.trans h
    exact ⟨fun _ => doneInError_raise s e, fun hzero => absurd hzero (ErrCode.code_ne_zero e)⟩
  · cases hword.symm.trans h
    obtain ⟨-, -, herr, hnone, hesticky, -⟩ := hcommitted.done
    exact ⟨fun hne => absurd herr hne, fun _ => ⟨hesticky, hnone⟩⟩

/-! ### The frame of a command -/

theorem exists_of_writesC {i : Instr} (h : writesC i = true) :
    ∃ rd ra rb, i = .addU rd ra rb ∨ i = .addS rd ra rb ∨ i = .subU rd ra rb ∨ i = .subS rd ra rb := by
  cases i with
  | addU rd ra rb => exact ⟨rd, ra, rb, .inl rfl⟩
  | addS rd ra rb => exact ⟨rd, ra, rb, .inr (.inl rfl)⟩
  | subU rd ra rb => exact ⟨rd, ra, rb, .inr (.inr (.inl rfl))⟩
  | subS rd ra rb => exact ⟨rd, ra, rb, .inr (.inr (.inr rfl))⟩
  | _ => exact nomatch h

theorem exists_of_writesCmp {i : Instr} (h : writesCmp i = true) : ∃ ra rb, i = .cmpU ra rb ∨ i = .cmpS ra rb := by
  cases i with
  | cmpU ra rb => exact ⟨ra, rb, .inl rfl⟩
  | cmpS ra rb => exact ⟨ra, rb, .inr rfl⟩
  | _ => exact nomatch h

/-- Settles O13: an error changes none of these fields, and a commit says which it may. -/
theorem everyCommandKeepsTheRest : Obligations.EveryCommandKeepsTheRest := by
  intro i s t h
  obtain ⟨u, hu, ⟨e, rfl⟩ | hcommitted⟩ := exec_endsWell i s
  · cases hu.symm.trans h
    exact ⟨fun _ _ _ => rfl, fun hc => absurd rfl hc, fun hcmp => absurd rfl hcmp, rfl, rfl, rfl, rfl, rfl⟩
  · cases hu.symm.trans h
    obtain ⟨hothers, -, -, -, -, hovr, hberr, hevents, hreadLog, hfreeCount⟩ := hcommitted.done
    exact ⟨hothers, fun hc => exists_of_writesC (Bool.of_not_eq_false (mt hcommitted.c_kept hc)),
      fun hcmp => exists_of_writesCmp (Bool.of_not_eq_false (mt hcommitted.cmp_kept hcmp)),
      hovr, hberr, hevents, hreadLog, hfreeCount⟩

/-! ### The outcome code of each command (R801, R803) -/

/-- The code a command ends with, in R803's order of its causes; `exec_errIs` ties it to exec. -/
def outcomeCode (i : Instr) (s : State) : BitVec 4 :=
  match i with
  | .divU _ _ rb | .divS _ _ rb => if s.x rb = 0 then 2 else 0
  | .mulw rd _ _ rh => if rd = rh then 1 else 0
  | .divmod rq _ rb rr => if rq = rr then 1 else if s.x rb = 0 then 2 else 0
  | .addmodU _ _ _ rm | .addmodS _ _ _ rm | .submodS _ _ _ rm | .mulmodU _ _ _ rm | .mulmodS _ _ _ rm
  | .expmodU _ _ _ rm => if s.x rm = 0 then 3 else 0
  | .expS _ _ rb => if isNeg (s.x rb) then 4 else 0
  | .expmodS _ _ rb rm => if s.x rm = 0 then 3 else if isNeg (s.x rb) then 4 else 0
  | .shlU _ _ rb | .shlS _ _ rb | .shrU _ _ rb | .shrS _ _ rb => if shiftAmount (s.x rb) < 0 then 5 else 0
  | .addU .. | .addS .. | .subU .. | .subS .. | .mulU .. | .mulS .. | .expU .. | .cmpU .. | .cmpS .. | .ldiU ..
  | .ldiS .. => 0

/-- The result is a next state, with this code in ERR. -/
def ErrIs (r : Result) (code : BitVec 4) : Prop := ∃ t, r = .next t ∧ t.err = code

theorem errIs_raise (e : ErrCode) (s : State) : ErrIs (raiseError e s) e.code := ⟨_, rfl, rfl⟩

theorem errIs_succeed (s : State) : ErrIs (.next s.succeed) 0 := ⟨_, rfl, rfl⟩

theorem errIs_ite (p : Prop) [Decidable p] {a b : Result} {m n : BitVec 4} (ha : ErrIs a m) (hb : ErrIs b n) :
    ErrIs (if p then a else b) (if p then m else n) := by
  split <;> assumption

theorem errIs_modularCommand (rd rm : RegId) (v : Value) (s : State) :
    ErrIs (modularCommand rd rm v s) (if s.x rm = 0 then 3 else 0) :=
  errIs_ite _ (errIs_raise .modZero s) (errIs_succeed _)

theorem errIs_shiftCommand (rd rb : RegId) (fill shifted : Value) (s : State) :
    ErrIs (shiftCommand rd rb fill shifted s) (if shiftAmount (s.x rb) < 0 then 5 else 0) := by
  refine errIs_ite _ (errIs_raise .negShift s) ?_
  split <;> exact errIs_succeed _

theorem exec_errIs (i : Instr) (s : State) : ErrIs (exec i s) (outcomeCode i s) := by
  cases i with
  | addU | addS | subU | subS | mulU | mulS | expU | cmpU | cmpS | ldiU | ldiS => exact errIs_succeed _
  | divU | divS => exact errIs_ite _ (errIs_raise .divZero s) (errIs_succeed _)
  | addmodU | addmodS | submodS | mulmodU | mulmodS | expmodU => exact errIs_modularCommand ..
  | expS => exact errIs_ite _ (errIs_raise .negExponent s) (errIs_succeed _)
  | expmodS =>
    exact errIs_ite _ (errIs_raise .modZero s) (errIs_ite _ (errIs_raise .negExponent s) (errIs_succeed _))
  | shlU | shlS | shrU | shrS => exact errIs_shiftCommand ..
  | mulw => exact errIs_ite _ (errIs_raise .illegal s) (errIs_succeed _)
  | divmod => exact errIs_ite _ (errIs_raise .illegal s) (errIs_ite _ (errIs_raise .divZero s) (errIs_succeed _))

/-- A shift amount is negative exactly when bit 31 of its register is 1 (R307). -/
theorem shiftAmount_neg_iff (v : Value) : shiftAmount v < 0 ↔ v.getLsbD 31 = true := by
  have hbit : (v.extractLsb' 0 32).getLsbD 31 = v.getLsbD 31 := by simp
  have hlt := (v.extractLsb' 0 32).isLt
  rw [shiftAmount, sint32, hbit]
  split
  · next hset => exact iff_of_true (by omega) hset
  · next hclear => exact iff_of_false (by omega) hclear

/-! ### The cause of each code -/

section
variable (i : Instr) (s : State)

theorem outcomeCode_le : (outcomeCode i s).toNat ≤ 5 := by
  obtain ⟨t, ht, herr⟩ := exec_errIs i s
  obtain ⟨u, hu, ⟨e, rfl⟩ | hcommitted⟩ := exec_endsWell i s
  · cases hu.symm.trans ht
    exact herr ▸ ErrCode.code_le e
  · cases hu.symm.trans ht
    obtain ⟨-, -, hnone, -⟩ := hcommitted.done
    rw [← herr, hnone]
    decide

/-- ILLEGAL comes from the decoder alone: a well-formed command has no cause for it. -/
theorem outcomeCode_ne_one (hwf : i.wf = true) : outcomeCode i s ≠ 1 := by
  cases i with
  | mulw | divmod => simp [outcomeCode, of_decide_eq_true hwf, ite_eq_iff]
  | _ => simp [outcomeCode, ite_eq_iff]

theorem outcomeCode_eq_two_iff (hwf : i.wf = true) : outcomeCode i s = 2 ↔
    ∃ rd ra rb rm, (i = .divU rd ra rb ∨ i = .divS rd ra rb ∨ i = .divmod rd ra rb rm) ∧ uval (s.x rb) = 0 := by
  cases i with
  | divU | divS => simp [outcomeCode, uval_eq_zero_iff]
  | divmod => simp [outcomeCode, uval_eq_zero_iff, of_decide_eq_true hwf]
  | _ => simp [outcomeCode, ite_eq_iff]

theorem outcomeCode_eq_three_iff : outcomeCode i s = 3 ↔
    ∃ rd ra rb rm, (i = .addmodU rd ra rb rm ∨ i = .addmodS rd ra rb rm ∨ i = .submodS rd ra rb rm ∨
      i = .mulmodU rd ra rb rm ∨ i = .mulmodS rd ra rb rm ∨ i = .expmodU rd ra rb rm ∨ i = .expmodS rd ra rb rm) ∧
      uval (s.x rm) = 0 := by
  cases i with
  | addmodU | addmodS | submodS | mulmodU | mulmodS | expmodU | expmodS =>
    simp [outcomeCode, uval_eq_zero_iff, ite_eq_iff]
  | _ => simp [outcomeCode, ite_eq_iff]

theorem outcomeCode_eq_four_iff : outcomeCode i s = 4 ↔
    ∃ rd ra rb rm, (i = .expS rd ra rb ∨ (i = .expmodS rd ra rb rm ∧ uval (s.x rm) ≠ 0)) ∧
      (s.x rb).getLsbD 255 = true := by
  cases i with
  | expS => simp [outcomeCode, isNeg]
  | expmodS => simp [outcomeCode, isNeg, uval_eq_zero_iff, ite_eq_iff]
  | _ => simp [outcomeCode, ite_eq_iff]

theorem outcomeCode_eq_five_iff : outcomeCode i s = 5 ↔
    ∃ rd ra rb, (i = .shlU rd ra rb ∨ i = .shlS rd ra rb ∨ i = .shrU rd ra rb ∨ i = .shrS rd ra rb) ∧
      (s.x rb).getLsbD 31 = true := by
  cases i with
  | shlU | shlS | shrU | shrS => simp [outcomeCode, shiftAmount_neg_iff]
  | _ => simp [outcomeCode, ite_eq_iff]

end

/-- Settles O12: a word that does not decode completes with ILLEGAL; any other ends with its command's code, and each code
has its cause. -/
theorem outcomeCodesHaveTheirCauses : Obligations.OutcomeCodesHaveTheirCauses := by
  intro W s t h
  cases hdecode : decode W with
  | error e =>
    cases (completeWord_of_decode_error hdecode s).symm.trans h
    simp [ErrCode.code]
  | ok i =>
    have hwf : i.wf = true := (decodedWordIsItsEncoding W i hdecode).1
    obtain ⟨u, hu, herr⟩ := exec_errIs i s
    cases hu.symm.trans ((completeWord_of_decode hdecode s).symm.trans h)
    simp only [herr, Except.ok.injEq]
    exact ⟨outcomeCode_le i s, iff_of_false (outcomeCode_ne_one i s hwf) nofun, outcomeCode_eq_two_iff i s hwf,
      outcomeCode_eq_three_iff i s, outcomeCode_eq_four_iff i s, outcomeCode_eq_five_iff i s⟩

end Sys2Proof.Machine
end

section
/-! PROOFS. 10_state: what an unwritten limb holds does not matter (R103, R112; 93 U1). -/

namespace Sys2Proof.Machine

/-! ### What a step reads -/

theorem usesUnwritten_of_completionNext {s : State} (hnext : s.CompletionNext) :
    s.usesUnwritten = s.completionReadsUnwritten := by
  obtain he | ⟨es, he⟩ := hnext <;> rw [State.usesUnwritten, he]

theorem usesUnwritten_of_hostRead {s : State} {off : Offset} {z : AccessSize} {es : List Event}
    (he : s.events = .hostRead off z :: es) : s.usesUnwritten = s.readsUnwritten off z := by
  rw [State.usesUnwritten, he]

theorem x_eq_of_mem_pair {s t : State} {a b : RegId} (hx : ∀ r ∈ [a, b], s.x r = t.x r) :
    s.x a = t.x a ∧ s.x b = t.x b :=
  ⟨hx a (by simp), hx b (by simp)⟩

theorem x_eq_of_mem_triple {s t : State} {a b m : RegId} (hx : ∀ r ∈ [a, b, m], s.x r = t.x r) :
    s.x a = t.x a ∧ s.x b = t.x b ∧ s.x m = t.x m :=
  ⟨hx a (by simp), hx b (by simp), hx m (by simp)⟩

/-! ### The view of each update -/

theorem inflight_eq_of_view {s t : State} (h : s.view = t.view) : s.inflight = t.inflight := congrArg SpecView.inflight h

theorem events_eq_of_view {s t : State} (h : s.view = t.view) : s.events = t.events := congrArg SpecView.events h

theorem busy_eq_of_view {s t : State} (h : s.view = t.view) : s.busy = t.busy := by
  rw [State.busy, State.busy, inflight_eq_of_view h]

theorem inv_of_view {s t : State} (h : s.view = t.view) (hinv : s.Inv) : t.Inv := by
  have hcmp : s.cmp = t.cmp := congrArg SpecView.cmp h
  have herr : s.err = t.err := congrArg SpecView.err h
  obtain ⟨hlegal, hle⟩ := hinv
  exact ⟨hcmp ▸ hlegal, herr ▸ hle⟩

theorem statusWord_eq_of_view {s t : State} (h : s.view = t.view) : s.statusWord = t.statusWord := by
  simp only [State.view, SpecView.mk.injEq] at h
  obtain ⟨-, hinflight, hc, hcmp, herr, hesticky, hovr, hberr, -⟩ := h
  simp only [State.statusWord, State.busy, hinflight, hc, hcmp, herr, hesticky, hovr, hberr]

/-- Limb j of Ri in R112's record. -/
theorem view_limb (s : State) (i : RegId) (j : LimbId) : s.view.R[i.val][j.val] = (s.limbAt i j).view := by
  simp [State.view, State.limbAt]

theorem setX_view (s : State) (i : RegId) (v : Value) :
    (s.setX i v).view = { s.view with R := s.view.R.set i.val ((writtenLimbs v).map Limb.view) } := by
  simp [State.view, State.setX, Vector.map_set]

theorem setLimb_view (s : State) (i : RegId) (j : LimbId) (v : Word) :
    (s.setLimb i j v).view = { s.view with R := s.view.R.set i.val (s.view.R[i.val].set j.val (some v)) } := by
  simp [State.view, State.setLimb, Vector.map_set, Limb.view]

section
variable {s t : State} (h : s.view = t.view)
include h

theorem advance_view_congr : s.advance.view = t.advance.view :=
  congrArg (fun w : SpecView => { w with events := w.events.tail }) h

theorem setX_view_congr (i : RegId) (v : Value) : (s.setX i v).view = (t.setX i v).view := by
  rw [setX_view, setX_view, h]

theorem setLimb_view_congr (i : RegId) (j : LimbId) (v : Word) : (s.setLimb i j v).view = (t.setLimb i j v).view := by
  rw [setLimb_view, setLimb_view, h]

theorem setC_view_congr (b : Bool) : (s.setC b).view = (t.setC b).view :=
  congrArg (fun w : SpecView => { w with c := b }) h

theorem setCmp_view_congr (o : Ordering) : (s.setCmp o).view = (t.setCmp o).view :=
  congrArg (fun w : SpecView => { w with cmp := cmpCode o }) h

theorem succeed_view_congr : s.succeed.view = t.succeed.view :=
  congrArg (fun w : SpecView => { w with err := errNone, inflight := none }) h

theorem raise_view_congr (e : ErrCode) : (s.raise e).view = (t.raise e).view :=
  congrArg (fun w : SpecView => { w with err := e.code, esticky := true, inflight := none }) h

theorem hardwareReset_view_congr : s.hardwareReset.view = t.hardwareReset.view :=
  congrArg (fun w : SpecView =>
    { State.reset.view with events := w.events, readLog := w.readLog, freeCount := w.freeCount }) h

theorem writeTarget_view_congr (v : Word) (target : Target) :
    (s.writeTarget v target).view = (t.writeTarget v target).view := by
  cases target with
  | limb i j =>
    rw [State.writeTarget, State.writeTarget, busy_eq_of_view h]
    split
    · exact congrArg (fun w : SpecView => { w with ovr := true }) h
    · exact setLimb_view_congr h i j v
  | cmd =>
    rw [State.writeTarget, State.writeTarget, busy_eq_of_view h]
    split
    · exact congrArg (fun w : SpecView => { w with ovr := true }) h
    · exact congrArg (fun w : SpecView => { w with inflight := some v }) h
  | status =>
    exact congrArg (fun w : SpecView => { w with
      esticky := w.esticky && !v.getLsbD 8, ovr := w.ovr && !v.getLsbD 9, berr := w.berr && !v.getLsbD 10 }) h

theorem hostWrite_view_congr (off : Offset) (z : AccessSize) (v : Word) :
    (s.hostWrite off z v).view = (t.hostWrite off z v).view := by
  cases ht : accessTarget off z with
  | none =>
    rw [hostWrite_of_no_target ht, hostWrite_of_no_target ht]
    exact congrArg (fun w : SpecView => { w with berr := true }) h
  | some target =>
    rw [hostWrite_of_target ht, hostWrite_of_target ht]
    exact writeTarget_view_congr h v target

/-! ### Reads of written limbs -/

/-- A written limb's value is in the view. -/
theorem limbValue_eq_of_view {i : RegId} {j : LimbId} (hw : (s.limbAt i j).written = true) :
    s.limbValue i j = t.limbValue i j := by
  have hlimb : (s.limbAt i j).view = (t.limbAt i j).view := by rw [← view_limb, ← view_limb, h]
  rw [Limb.view, Limb.view, if_pos hw] at hlimb
  split at hlimb
  · exact Option.some.inj hlimb
  · cases hlimb

theorem x_eq_of_view {i : RegId} (hw : s.allWritten i = true) : s.x i = t.x i := by
  have hlimb (j : LimbId) : s.limbValue i j = t.limbValue i j := limbValue_eq_of_view h (written_of_allWritten hw j)
  rw [State.x, State.x, hlimb, hlimb, hlimb, hlimb]

/-- A read that uses no unwritten limb returns one word from both states (R203). -/
theorem readValue_eq_of_view {off : Offset} {z : AccessSize} (hread : s.readsUnwritten off z = false) :
    s.readValue off z = t.readValue off z := by
  have hfree : s.freeCount = t.freeCount := congrArg SpecView.freeCount h
  rw [State.readValue, State.readValue]
  cases ht : accessTarget off z with
  | none => rfl
  | some target =>
    cases target with
    | cmd => rfl
    | status => exact statusWord_eq_of_view h
    | limb i j =>
      simp only [State.readTarget, ← busy_eq_of_view h, hfree]
      split
      · rfl
      · next hidle =>
        simp only [State.readsUnwritten, ht, hidle, Bool.not_false, Bool.true_and, Bool.not_eq_false'] at hread
        exact limbValue_eq_of_view h hread

theorem hostRead_view_congr {off : Offset} {z : AccessSize} (hread : s.readsUnwritten off z = false) :
    (s.hostRead off z).view = (t.hostRead off z).view := by
  have hfree : s.readTakesFree off z = t.readTakesFree off z := by
    rw [State.readTakesFree, State.readTakesFree, busy_eq_of_view h]
  rw [State.hostRead, State.hostRead, readValue_eq_of_view h hread, hfree]
  exact congrArg (fun w : SpecView => { w with
    berr := w.berr || (accessTarget off z).isNone
    readLog := t.readValue off z :: w.readLog
    freeCount := if t.readTakesFree off z then w.freeCount + 1 else w.freeCount }) h

end

/-! ### Completion -/

/-- Both answer a next state, with one view. -/
def SameView (r r' : Result) : Prop := ∃ u u', r = .next u ∧ r' = .next u' ∧ u.view = u'.view

theorem sameView_ite {p q : Prop} [Decidable p] [Decidable q] (hpq : p ↔ q) {a b a' b' : Result} (ha : SameView a a')
    (hb : SameView b b') : SameView (if p then a else b) (if q then a' else b') := by
  by_cases hp : p
  · rwa [if_pos hp, if_pos (hpq.mp hp)]
  · rwa [if_neg hp, if_neg (mt hpq.mpr hp)]

section
variable {s t : State} (h : s.view = t.view)
include h

theorem sameView_raise (e : ErrCode) : SameView (raiseError e s) (raiseError e t) :=
  ⟨_, _, rfl, rfl, raise_view_congr h e⟩

theorem sameView_writeOne (rd : RegId) {v u : Value} (hv : v = u) : SameView (writeOne rd v s) (writeOne rd u t) :=
  ⟨_, _, rfl, rfl, hv ▸ succeed_view_congr (setX_view_congr h rd v)⟩

theorem sameView_writeTwo (rd rm : RegId) {v u v' u' : Value} (hv : v = u) (hv' : v' = u') :
    SameView (writeTwo rd v rm v' s) (writeTwo rd u rm u' t) :=
  ⟨_, _, rfl, rfl, hv ▸ hv' ▸ succeed_view_congr (setX_view_congr (setX_view_congr h rd v) rm v')⟩

theorem sameView_carry (rd : RegId) {v u : Value} {b c : Bool} (hv : v = u) (hb : b = c) :
    SameView (.next ((s.setX rd v).setC b).succeed) (.next ((t.setX rd u).setC c).succeed) :=
  ⟨_, _, rfl, rfl, hv ▸ hb ▸ succeed_view_congr (setC_view_congr (setX_view_congr h rd v) b)⟩

theorem sameView_compare {o p : Ordering} (ho : o = p) :
    SameView (.next (s.setCmp o).succeed) (.next (t.setCmp p).succeed) :=
  ⟨_, _, rfl, rfl, ho ▸ succeed_view_congr (setCmp_view_congr h o)⟩

theorem sameView_modularCommand (rd : RegId) {rm : RegId} {v u : Value} (hm : s.x rm = t.x rm) (hv : v = u) :
    SameView (modularCommand rd rm v s) (modularCommand rd rm u t) :=
  sameView_ite (by rw [hm]) (sameView_raise h _) (sameView_writeOne h rd hv)

theorem sameView_shiftCommand (rd : RegId) {rb : RegId} {fill fill' v u : Value} (hb : s.x rb = t.x rb)
    (hfill : fill = fill') (hv : v = u) :
    SameView (shiftCommand rd rb fill v s) (shiftCommand rd rb fill' u t) :=
  sameView_ite (by rw [hb]) (sameView_raise h _)
    (sameView_ite (by rw [hb]) (sameView_writeOne h rd hfill) (sameView_writeOne h rd hv))

/-- A command reads no register but its sources. -/
theorem exec_sameView (i : Instr) (hx : ∀ r ∈ sources i, s.x r = t.x r) : SameView (exec i s) (exec i t) := by
  cases i with
  | addU rd ra rb | addS rd ra rb | subU rd ra rb | subS rd ra rb =>
    obtain ⟨ha, hb⟩ := x_eq_of_mem_pair hx
    exact sameView_carry h rd (by rw [ha, hb]) (by rw [ha, hb])
  | mulU rd ra rb | mulS rd ra rb | expU rd ra rb =>
    obtain ⟨ha, hb⟩ := x_eq_of_mem_pair hx
    exact sameView_writeOne h rd (by rw [ha, hb])
  | divU rd ra rb | divS rd ra rb | expS rd ra rb =>
    obtain ⟨ha, hb⟩ := x_eq_of_mem_pair hx
    exact sameView_ite (by rw [hb]) (sameView_raise h _) (sameView_writeOne h rd (by rw [ha, hb]))
  | addmodU rd ra rb rm | addmodS rd ra rb rm | submodS rd ra rb rm | mulmodU rd ra rb rm | mulmodS rd ra rb rm
  | expmodU rd ra rb rm =>
    obtain ⟨ha, hb, hm⟩ := x_eq_of_mem_triple hx
    exact sameView_modularCommand h rd hm (by rw [ha, hb, hm])
  | expmodS rd ra rb rm =>
    obtain ⟨ha, hb, hm⟩ := x_eq_of_mem_triple hx
    exact sameView_ite (by rw [hm]) (sameView_raise h _)
      (sameView_ite (by rw [hb]) (sameView_raise h _) (sameView_writeOne h rd (by rw [ha, hb, hm])))
  | shlU rd ra rb | shlS rd ra rb | shrU rd ra rb =>
    obtain ⟨ha, hb⟩ := x_eq_of_mem_pair hx
    exact sameView_shiftCommand h rd hb rfl (by rw [ha, hb])
  | shrS rd ra rb =>
    obtain ⟨ha, hb⟩ := x_eq_of_mem_pair hx
    exact sameView_shiftCommand h rd hb (by rw [ha]) (by rw [ha, hb])
  | cmpU ra rb | cmpS ra rb =>
    obtain ⟨ha, hb⟩ := x_eq_of_mem_pair hx
    exact sameView_compare h (by rw [ha, hb])
  | mulw rd ra rb rh =>
    obtain ⟨ha, hb⟩ := x_eq_of_mem_pair hx
    exact sameView_ite Iff.rfl (sameView_raise h _) (sameView_writeTwo h rd rh (by rw [ha, hb]) (by rw [ha, hb]))
  | divmod rq ra rb rr =>
    obtain ⟨ha, hb⟩ := x_eq_of_mem_pair hx
    exact sameView_ite Iff.rfl (sameView_raise h _) (sameView_ite (by rw [hb]) (sameView_raise h _)
      (sameView_writeTwo h rq rr (by rw [ha, hb]) (by rw [ha, hb])))
  | ldiU rd | ldiS rd => exact sameView_writeOne h rd rfl

theorem completeWord_sameView {W : Word} (hread : s.wordReadsUnwritten W = false) :
    SameView (completeWord W s) (completeWord W t) := by
  cases hdecode : decode W with
  | error e =>
    rw [completeWord_of_decode_error hdecode, completeWord_of_decode_error hdecode]
    exact sameView_raise h .illegal
  | ok i =>
    have hwritten : ∀ r ∈ sources i, s.allWritten r = true := by
      simpa [State.wordReadsUnwritten, hdecode] using hread
    rw [completeWord_of_decode hdecode, completeWord_of_decode hdecode]
    exact exec_sameView h i fun r hr => x_eq_of_view h (hwritten r hr)

theorem completeInflight_sameView (hread : s.completionReadsUnwritten = false) :
    SameView (completeInflight s) (completeInflight t) := by
  cases hW : s.inflight with
  | none =>
    rw [completeInflight_idle hW, completeInflight_idle ((inflight_eq_of_view h).symm.trans hW)]
    exact ⟨s, t, rfl, rfl, h⟩
  | some W =>
    rw [completeInflight_busy hW, completeInflight_busy ((inflight_eq_of_view h).symm.trans hW)]
    have hread' : s.wordReadsUnwritten W = false := by rwa [State.completionReadsUnwritten, hW] at hread
    exact completeWord_sameView h hread'

/-! ### The step -/

theorem completionNext_of_view (hnext : s.CompletionNext) : t.CompletionNext := by
  rwa [State.CompletionNext, ← events_eq_of_view h]

theorem step_sameView (hinv : s.Inv) (huses : s.usesUnwritten = false) : SameView (step s) (step t) := by
  have hinv' : t.Inv := inv_of_view h hinv
  have hadvance : s.advance.view = t.advance.view := advance_view_congr h
  obtain hnext | ⟨es, he⟩ | ⟨off, z, v, es, he⟩ | ⟨off, z, es, he⟩ := events_cases s
  · rw [step_of_completionNext hinv hnext, step_of_completionNext hinv' (completionNext_of_view h hnext)]
    rw [usesUnwritten_of_completionNext hnext] at huses
    exact completeInflight_sameView hadvance huses
  · have he' : t.events = .reset :: es := (events_eq_of_view h).symm.trans he
    rw [step_reset hinv he, step_reset hinv' he', ← advance_of_event he, ← advance_of_event he']
    exact ⟨_, _, rfl, rfl, hardwareReset_view_congr hadvance⟩
  · have he' : t.events = .hostWrite off z v :: es := (events_eq_of_view h).symm.trans he
    rw [step_hostWrite hinv he, step_hostWrite hinv' he', ← advance_of_event he, ← advance_of_event he']
    exact ⟨_, _, rfl, rfl, hostWrite_view_congr hadvance off z v⟩
  · have he' : t.events = .hostRead off z :: es := (events_eq_of_view h).symm.trans he
    rw [step_hostRead hinv he, step_hostRead hinv' he', ← advance_of_event he, ← advance_of_event he']
    rw [usesUnwritten_of_hostRead he] at huses
    exact ⟨_, _, rfl, rfl, hostRead_view_congr (s := s.advance) hadvance huses⟩

end

/-- Settles O51: every update of the state is an update of its view, and what a step reads (a register, a limb, STATUS) is
in the view where no unwritten limb is read. -/
theorem unwrittenLimbsDoNotMatter : Obligations.UnwrittenLimbsDoNotMatter := by
  intro s t s' h huses hstep
  obtain ⟨u, t', hu, ht', hview⟩ := step_sameView h (step_transition hstep).1 huses
  cases hu.symm.trans hstep
  exact ⟨t', ht', hview⟩

end Sys2Proof.Machine
end

section
/-! PROOFS. 40_add_sub: the laws of ADD and SUB (section 3). -/

namespace Sys2Proof.Machine

/-- SUB of b from a sum a + b, in the numbers of the adder and the subtractor. -/
theorem sub256_add256 (a b : Value) :
    (sub256 (add256 a b).1 b).1 = a ∧ (sub256 (add256 a b).1 b).2 = (add256 a b).2 := by
  refine ⟨by rw [sub256_diff, add256_sum, BitVec.add_sub_cancel], ?_⟩
  have hsum := add_val a b
  have ha := uval_lt a
  have hb := uval_lt b
  have hlt := uval_lt (add256 a b).1
  rw [sub256_borrow]
  cases hc : (add256 a b).2 with
  | false =>
    rw [hc, Bool.toNat_false] at hsum
    exact decide_eq_false (by omega)
  | true =>
    rw [hc, Bool.toNat_true] at hsum
    exact decide_eq_true (by omega)

/-- Settles O16: the two identities are the adder's and the subtractor's; rb still holds b after ADD, since rd ≠ rb. -/
theorem subUndoesAddWithTheSameCarry : Obligations.SubUndoesAddWithTheSameCarry := by
  intro rd ra rb re s hne
  let t := ((s.setX rd (add256 (s.x ra) (s.x rb)).1).setC (add256 (s.x ra) (s.x rb)).2).succeed
  have hd : t.x rd = (add256 (s.x ra) (s.x rb)).1 := x_setX_self ..
  have hb : t.x rb = s.x rb := x_setX_ne s _ hne.symm
  let u := ((t.setX re (sub256 (t.x rd) (t.x rb)).1).setC (sub256 (t.x rd) (t.x rb)).2).succeed
  have he : u.x re = (sub256 (t.x rd) (t.x rb)).1 := x_setX_self ..
  have hc : u.c = (sub256 (t.x rd) (t.x rb)).2 := rfl
  obtain ⟨hback, hcarry⟩ := sub256_add256 (s.x ra) (s.x rb)
  refine ⟨t, u, rfl, rfl, ?_, ?_, ?_, ?_⟩
  · rw [hd]; exact (add_val ..).symm
  · rw [he, hc]; exact (sub_val ..).symm
  · rw [he, hd, hb, hback]
  · rw [hc, hd, hb, hcarry]; rfl

end Sys2Proof.Machine
end

section
/-! PROOFS. 42_divide: the restoring divider (section 1), and the law of DIVMOD (section 3). -/

namespace Sys2Proof.Machine

/-! ### The restoring loop (R500) -/

/-- The remainder shifted left with the next dividend bit in its low place does not leave 257 bits. -/
theorem toNat_shiftIn (r : BitVec 257) (b : Bool) (hr : r.toNat < 2 ^ 256) :
    ((r <<< 1) ||| (BitVec.ofBool b).setWidth 257).toNat = 2 * r.toNat + b.toNat := by
  have hb : b.toNat < 2 ^ 1 := by cases b <;> decide
  have hshift : (r <<< 1).toNat = 2 ^ 1 * r.toNat := by
    rw [BitVec.toNat_shiftLeft, Nat.shiftLeft_eq, Nat.mod_eq_of_lt (by omega)]
    omega
  have hbit : ((BitVec.ofBool b).setWidth 257).toNat = b.toNat := by
    rw [BitVec.toNat_setWidth_of_le (by norm_num), BitVec.toNat_ofBool]
  rw [BitVec.toNat_or, hshift, hbit, ← Nat.two_pow_add_eq_or_of_lt hb, pow_one]

/-- Setting bit i of a quotient whose bits i to 0 are 0. -/
theorem toNat_setBit {n : Nat} {q : BitVec n} {i Q : Nat} (hi : i < n) (hq : q.toNat = 2 ^ (i + 1) * Q) :
    (q ||| BitVec.twoPow n i).toNat = 2 ^ i * (2 * Q + 1) := by
  have hpow : 2 ^ i < 2 ^ (i + 1) := Nat.pow_lt_pow_right (by norm_num) (by omega)
  rw [BitVec.toNat_or, BitVec.toNat_twoPow_of_lt hi, hq, ← Nat.two_pow_add_eq_or_of_lt hpow]
  ring

theorem toNat_getLsbD {n : Nat} (A : BitVec n) (i : Nat) : (A.getLsbD i).toNat = A.toNat / 2 ^ i % 2 := by
  rw [BitVec.getLsbD, Nat.toNat_testBit]

/-- The loop's invariant: the dividend's bits from i up are the quotient so far times B, plus the remainder, below B. -/
def DivInvariant {n : Nat} (A : BitVec n) (B : Value) (i : Nat) (q : BitVec n) (r : BitVec 257) : Prop :=
  ∃ Q, q.toNat = 2 ^ i * Q ∧ A.toNat / 2 ^ i = Q * uval B + r.toNat ∧ r.toNat < uval B

theorem divLoop_invariant {n : Nat} (A : BitVec n) (B : Value) (i : Nat) :
    ∀ (q : BitVec n) (r : BitVec 257), i ≤ n → DivInvariant A B i q r →
      DivInvariant A B 0 (divLoop A B i q r).1 (divLoop A B i q r).2 := by
  induction i with
  | zero => exact fun q r _ h => h
  | succ i ih =>
    rintro q r hi ⟨Q, hq, hA, hr⟩
    have hB : (B.setWidth 257).toNat = uval B := BitVec.toNat_setWidth_of_le (by norm_num)
    have hBlt := uval_lt B
    have hr' := toNat_shiftIn r (A.getLsbD i) (by omega)
    have hstep : A.toNat / 2 ^ i = 2 * Q * uval B + (2 * r.toNat + A.toNat / 2 ^ i % 2) := by
      have hhalf : A.toNat / 2 ^ i / 2 = Q * uval B + r.toNat := by rw [Nat.div_div_eq_div_mul, ← pow_succ, hA]
      have hbit := Nat.div_add_mod (A.toNat / 2 ^ i) 2
      rw [hhalf] at hbit
      linarith
    rw [toNat_getLsbD] at hr'
    rw [divLoop]
    split
    · next hle =>
      have hle' : uval B ≤ _ := hB ▸ BitVec.le_def.mp hle
      refine ih _ _ (by omega) ⟨2 * Q + 1, toNat_setBit (by omega) hq, ?_, ?_⟩
      · rw [BitVec.toNat_sub_of_le hle, hB, hstep, ← hr', add_one_mul]
        omega
      · rw [BitVec.toNat_sub_of_le hle, hB]
        omega
    · next hlt =>
      have hlt' := mt BitVec.le_def.mpr hlt
      rw [hB, not_le] at hlt'
      refine ih _ _ (by omega) ⟨2 * Q, by rw [hq]; ring, ?_, hlt'⟩
      rw [hr']; exact hstep

/-- Settles O22: the loop's invariant at its end is the division identity, which fixes quotient and remainder. -/
theorem restoringDividerIsExact : Obligations.RestoringDividerIsExact := by
  intro n A B hB
  have hpos : 0 < uval B := Nat.pos_of_ne_zero (mt (uval_eq_zero_iff B).mp hB)
  have hzero : (0 : BitVec 257).toNat = 0 := BitVec.toNat_zero
  have hstart : DivInvariant A B n 0 0 :=
    ⟨0, rfl, by rw [Nat.div_eq_of_lt A.isLt, hzero, zero_mul], by rwa [hzero]⟩
  obtain ⟨Q, hq, hA, hr⟩ := divLoop_invariant A B n 0 0 le_rfl hstart
  rw [pow_zero, Nat.div_one] at hA
  rw [pow_zero, one_mul] at hq
  have hidentity : (divLoop A B n 0 0).2.toNat + uval B * Q = A.toNat := by rw [hA, mul_comm, add_comm]
  obtain ⟨hQ, hR⟩ := (Nat.div_mod_unique hpos).mpr ⟨hidentity, hr⟩
  have hquotient : (divModReference A B).1.toNat = A.toNat / uval B := hq.trans hQ.symm
  have hremainder : uval (divModReference A B).2 = A.toNat % uval B := by
    rw [hR, divModReference, uval, BitVec.toNat_setWidth, Nat.mod_eq_of_lt (hr.trans (uval_lt B))]
  refine ⟨hquotient, hremainder, Prod.ext ?_ ?_⟩
  · exact BitVec.eq_of_toNat_eq (hquotient.trans (divModN_quotient A B).symm)
  · exact value_eq_of_uval (hremainder.trans (divModN_remainder A B hB).symm)

/-! ### The law of DIVMOD -/

/-- The divisor times the quotient stays in 256 bits, and so does its sum with the remainder. -/
theorem mul_add_divModN (a b : Value) (hb : b ≠ 0) :
    b * (divModN a b).1 + (divModN a b).2 = a ∧ uval (b * (divModN a b).1) + uval (divModN a b).2 = uval a := by
  obtain ⟨hidentity, -⟩ := divModN_identity a b hb
  have ha := uval_lt a
  have hproduct : uval (b * (divModN a b).1) = uval (divModN a b).1 * uval b := by
    have hlt : uval (divModN a b).1 * uval b < 2 ^ 256 := by omega
    rw [uval, BitVec.toNat_mul, mul_comm]
    exact Nat.mod_eq_of_lt hlt
  have hsum : uval (b * (divModN a b).1) + uval (divModN a b).2 = uval a := by rw [hproduct, ← hidentity]
  have hlt : uval (b * (divModN a b).1) + uval (divModN a b).2 < 2 ^ 256 := hsum ▸ uval_lt a
  refine ⟨value_eq_of_uval ?_, hsum⟩
  rw [uval, BitVec.toNat_add]
  exact (Nat.mod_eq_of_lt hlt).trans hsum

/-- Settles O23: the two results and the divisor are read back where the next command needs them, and the sum is the
dividend without a carry. -/
theorem divmodMulAddReconstructTheDividend : Obligations.DivmodMulAddReconstructTheDividend := by
  intro rq rr ra rb rt s hne hbq hbr htr hb
  have hb' : s.x rb ≠ 0 := mt (uval_eq_zero_iff _).mpr hb
  obtain ⟨hdividend, hsum⟩ := mul_add_divModN (s.x ra) (s.x rb) hb'
  set q := (divModN (s.x ra) (s.x rb)).1
  set r := (divModN (s.x ra) (s.x rb)).2
  let s1 := ((s.setX rq q).setX rr r).succeed
  have h1b : s1.x rb = s.x rb := by rw [x_succeed, x_setX_ne _ _ hbr, x_setX_ne _ _ hbq]
  have h1q : s1.x rq = q := by rw [x_succeed, x_setX_ne _ _ hne, x_setX_self]
  let s2 := (s1.setX rt (s1.x rb * s1.x rq)).succeed
  have h2t : s2.x rt = s.x rb * q := by rw [x_succeed, x_setX_self, h1b, h1q]
  have h2r : s2.x rr = r := by rw [x_succeed, x_setX_ne _ _ htr.symm, x_succeed, x_setX_self]
  refine ⟨s1, s2, _, execDivmod_ne_zero hne hb' ra, mulCommand_eq rt rb rq s1, addCommand_eq rt rt rr s2, ?_, ?_⟩
  · rw [x_succeed, x_setC, x_setX_self, h2t, h2r, hdividend]
  · rw [State.succeed_c, State.setC_c, h2t, h2r, hsum, decide_eq_false (uval_lt _).not_ge]

end Sys2Proof.Machine
end

section
/-! PROOFS. 43_modular and 44_exponent: on operands below the sign the two types of a modular command agree. -/

namespace Sys2Proof.Machine

theorem sval_of_not_isNeg {v : Value} (h : isNeg v = false) : sval v = uval v := by
  rw [sval_eq, h]; rfl

theorem magnitude_of_not_isNeg {v : Value} (h : isNeg v = false) : magnitude v = v := by
  rw [magnitude, h]; rfl

theorem withSign_false (mag : Value) : withSign false mag = mag := if_neg Bool.false_ne_true

/-- SReduce of a number that is not negative, by a modulus below the sign, is Reduce of its pattern (R556). -/
theorem sreduce_natCast (X : Nat) {m : Value} (hm : isNeg m = false) : sreduce X m = reduce (enc512 X) m := by
  have hnonneg : decide ((X : Int) < 0) = false := decide_eq_false (Int.natCast_nonneg X).not_gt
  rw [sreduce, magnitude_of_not_isNeg hm, hnonneg, Int.natAbs_natCast, withSign_false]

theorem wideSum_eq (a b : Value) : wideSum a b = enc512 (uval a + uval b) := by
  rw [enc512, ← wideSum_toNat, BitVec.ofNat_toNat, BitVec.setWidth_eq]

theorem mulWide_eq (a b : Value) : mulWide a b = enc512 (uval a * uval b) := by
  rw [enc512, ← mulWide_toNat, BitVec.ofNat_toNat, BitVec.setWidth_eq]

theorem signedPowMod_of_not_isNeg {a m : Value} (e : Value) (ha : isNeg a = false) (hm : isNeg m = false) :
    signedPowMod a e m = powMod a e m := by
  rw [signedPowMod, ha, Bool.false_and, withSign_false, magnitude_of_not_isNeg ha, magnitude_of_not_isNeg hm]

/-- Settles O29: the exact sum and product are not negative, so SReduce of them is Reduce; EXPMOD.s runs the same pipeline
on its operands' magnitudes, which are the operands. -/
theorem signedAndUnsignedModularAgreeBelowTheSign : Obligations.SignedAndUnsignedModularAgreeBelowTheSign := by
  intro rd ra rb rm s ha hb hm
  refine ⟨?_, ?_, ?_⟩
  · rw [exec_addmodU, exec_addmodS, wideSum_eq, ← sreduce_natCast _ hm, Nat.cast_add, sval_of_not_isNeg ha,
      sval_of_not_isNeg hb]
  · rw [exec_mulmodU, exec_mulmodS, mulWide_eq, ← sreduce_natCast _ hm, Nat.cast_mul, sval_of_not_isNeg ha,
      sval_of_not_isNeg hb]
  · rw [exec_expmodU]
    by_cases hzero : s.x rm = 0
    · rw [modularCommand_zero hzero, exec_expmodS_zero hzero]
    · rw [modularCommand_ne_zero hzero, exec_expmodS_nonneg hzero hb, signedPowMod_of_not_isNeg _ ha hm]

end Sys2Proof.Machine
end

section
/-! PROOFS. 45_shift: the laws of SHL and SHR (section 3), and the constants they build (48_host_conversions section
1). -/

namespace Sys2Proof.Machine

theorem uval_enc_two_pow {n : Nat} (hn : n < 256) : uval (enc (2 ^ n)) = 2 ^ n := by
  have hlt : (2 : Int) ^ n < 2 ^ 256 := pow_lt_pow_right₀ (by norm_num) hn
  have h := uval_enc (2 ^ n)
  rw [Int.emod_eq_of_lt (by positivity) hlt] at h
  exact_mod_cast h

/-- A shift by an amount in range writes what the shifter gives. -/
theorem shiftCommand_of_lt {rb : RegId} {s : State} {n : Nat} (hn : n < 256) (hamount : shiftAmount (s.x rb) = n)
    (rd : RegId) (fill shifted : Value) : shiftCommand rd rb fill shifted s = .next (s.setX rd shifted).succeed := by
  rw [shiftCommand_nonneg (by omega), if_neg (by omega)]

/-- Settles O37: below 256 the shifts are the product and the quotient by 2^n, as MUL and DIV.u write them. -/
theorem shiftsAreMulAndDivByPowersOfTwo : Obligations.ShiftsAreMulAndDivByPowersOfTwo := by
  intro rd ra rb rp s n hn hamount hp
  have hpow : uval (s.x rp) = 2 ^ n := by rw [hp, uval_enc_two_pow hn]
  have hmul : shiftLeft (s.x ra) n = s.x ra * s.x rp := by
    rw [shiftLeft_eq_enc, enc_mul, enc_uval, hp]
  have hdiv : shiftRight (s.x ra) n 0 = (divModN (s.x ra) (s.x rp)).1 := by
    apply value_eq_of_uval
    rw [uval_shiftRight_zero, ← hpow]
    exact (divModN_quotient ..).symm
  have hne : s.x rp ≠ 0 := by
    rw [Ne, ← uval_eq_zero_iff, hpow]
    positivity
  constructor
  · rw [exec_shlU, shiftCommand_of_lt hn hamount, hamount, Int.toNat_natCast, hmul]
    exact (mulCommand_eq rd ra rp s).symm
  · rw [exec_shrU, shiftCommand_of_lt hn hamount, hamount, Int.toNat_natCast, hdiv]
    exact (execDivU_ne_zero hne rd ra).symm

/-- Two loads, one after the other, are both read back if they are to different registers. -/
theorem x_after_two_loads (s : State) {rd t : RegId} (hne : rd ≠ t) (v u : Value) :
    ((s.setX rd v).succeed.setX t u).succeed.x rd = v ∧ ((s.setX rd v).succeed.setX t u).succeed.x t = u :=
  ⟨by rw [x_succeed, x_setX_ne _ _ hne, x_succeed, x_setX_self], by rw [x_succeed, x_setX_self]⟩

/-- Settles O56: the shift reads back both loads, and its result is computed. -/
theorem constantSequencesBuildMinAndMax : Obligations.ConstantSequencesBuildMinAndMax := by
  intro rd t s hne
  constructor
  · obtain ⟨hrd, ht⟩ := x_after_two_loads s hne (immU 1) (immU 255)
    have hamount : shiftAmount (immU 255) = (255 : Nat) := by decide
    refine ⟨_, _, _, exec_ldiU .., exec_ldiU .., (exec_shlU ..).trans
      (shiftCommand_of_lt (by norm_num) ((congrArg shiftAmount ht).trans hamount) ..), ?_, rfl⟩
    rw [x_succeed, x_setX_self, hrd, ht]
    decide +kernel
  · obtain ⟨hrd, ht⟩ := x_after_two_loads s hne (immS 0xFFFF) (immU 1)
    have hamount : shiftAmount (immU 1) = (1 : Nat) := by decide
    refine ⟨_, _, _, exec_ldiS .., exec_ldiU .., (exec_shrU ..).trans
      (shiftCommand_of_lt (by norm_num) ((congrArg shiftAmount ht).trans hamount) ..), ?_, rfl⟩
    rw [x_succeed, x_setX_self, hrd, ht]
    decide +kernel

end Sys2Proof.Machine
end

section
/-! PROOFS. 46_compare_load: the laws of CMP (section 3). -/

namespace Sys2Proof.Machine

theorem cmpCode_eq_equal_iff (o : Ordering) : cmpCode o = 0b00 ↔ o = .eq := by cases o <;> decide

theorem cmpCode_eq_less_iff (o : Ordering) : cmpCode o = 0b01 ↔ o = .lt := by cases o <;> decide

theorem cmpCode_eq_greater_iff (o : Ordering) : cmpCode o = 0b10 ↔ o = .gt := by cases o <;> decide

theorem uval_inj (a b : Value) : uval a = uval b ↔ a = b := BitVec.toNat_inj

theorem sval_inj (a b : Value) : sval a = sval b ↔ a = b := by
  rw [sval_toInt, sval_toInt, BitVec.toInt_inj]

/-- Settles O41: each clause is about the order of the values, unsigned or signed, and each reading has one pattern. -/
theorem comparisonsAgreeWithEachOtherAndWithSub : Obligations.ComparisonsAgreeWithEachOtherAndWithSub := by
  intro rd ra rb s
  refine ⟨_, _, _, _, _, subCommand_eq rd ra rb s, exec_cmpU ra rb s, exec_cmpU rb ra s, exec_cmpS ra rb s,
    exec_cmpS rb ra s, ?_⟩
  simp only [State.succeed_c, State.setC_c, State.succeed_cmp, State.setCmp_cmp, decide_eq_true_iff,
    cmpCode_eq_equal_iff, cmpCode_eq_less_iff, cmpCode_eq_greater_iff, compare_eq_iff_eq, compare_lt_iff_lt,
    compare_gt_iff_gt, uval_inj, sval_inj, and_self]

end Sys2Proof.Machine
end

section
/-! PROOFS. 10_state and 20_memory: STATUS as read and as written (R108), the byte order of a register (section 2), and
the window (R200). -/

namespace Sys2Proof.Machine

/-! ### STATUS (R108) -/

theorem hostRead_status (s : State) : s.hostRead 0x208 .b8 = { s with readLog := s.statusWord :: s.readLog } :=
  hostRead_of_target_ne_limb accessTarget_status nofun s

theorem hostWrite_status (s : State) (v : Word) : s.hostWrite 0x208 .b8 v = s.writeStatus v :=
  hostWrite_of_target accessTarget_status s v

theorem statusWord_flags (s : State) : s.statusWord.getLsbD 0 = s.busy ∧ s.statusWord.getLsbD 1 = s.c ∧
    s.statusWord.getLsbD 8 = s.esticky ∧ s.statusWord.getLsbD 9 = s.ovr ∧ s.statusWord.getLsbD 10 = s.berr := by
  simp only [State.statusWord, BitVec.getLsbD_append]
  simp

section
open BitVec

/-- A wider field is what is left of the word when the fields below it are taken off. -/
theorem statusWord_cmp (s : State) : s.statusWord.extractLsb' 2 2 = s.cmp := by
  rw [State.statusWord, extractLsb'_append_eq_of_le (by decide), extractLsb'_append_eq_of_le (by decide),
    extractLsb'_append_eq_of_add_le (by decide), extractLsb'_eq_self]

theorem statusWord_err (s : State) : s.statusWord.extractLsb' 4 4 = s.err := by
  rw [State.statusWord, extractLsb'_append_eq_of_le (by decide), extractLsb'_append_eq_of_le (by decide),
    extractLsb'_append_eq_of_le (by decide), extractLsb'_append_eq_of_add_le (by decide), extractLsb'_eq_self]

theorem statusWord_reserved (s : State) : s.statusWord.extractLsb' 11 53 = 0 := by
  rw [State.statusWord, extractLsb'_append_eq_of_le (by decide), extractLsb'_append_eq_of_le (by decide),
    extractLsb'_append_eq_of_le (by decide), extractLsb'_append_eq_of_le (by decide),
    extractLsb'_append_eq_of_le (by decide), extractLsb'_append_eq_of_le (by decide),
    extractLsb'_append_eq_of_le (by decide), extractLsb'_eq_self]
  rfl

end

/-- Settles O46: a STATUS read logs the STATUS word at either BUSY, and the word is the concatenation of the fields. -/
theorem statusReadReturnsItsFields : Obligations.StatusReadReturnsItsFields := by
  intro s es hinv he
  obtain ⟨hbusy, hc, hesticky, hovr, hberr⟩ := statusWord_flags s
  refine ⟨s.statusWord, ?_, by rw [hbusy, busy_eq_true_iff], hc, statusWord_cmp s, statusWord_err s, hesticky, hovr,
    hberr, statusWord_reserved s⟩
  rw [step_hostRead hinv he, hostRead_status]
  rfl

/-- Settles O47: a STATUS write reaches writeStatus at either BUSY. -/
theorem statusWriteClearsWrittenOnes : Obligations.StatusWriteClearsWrittenOnes := by
  intro s v es hinv he
  have hclear (b write : Bool) : (b && !write) = if write then false else b := by cases write <;> simp
  rw [step_hostWrite hinv he, hostWrite_status, State.writeStatus, hclear, hclear, hclear]

/-! ### The byte order (20_memory section 2) -/

theorem wordByte_limb (v : Value) (j : Nat) {k : Nat} (hk : k < 8) :
    wordByte (limb v j) k = v.extractLsb' (8 * (8 * j + k)) 8 := by
  apply BitVec.eq_of_getLsbD_eq
  intro b hb
  have hindex : 64 * j + (8 * k + b) = 8 * (8 * j + k) + b := by ring
  rw [wordByte, BitVec.getLsbD_extractLsb', getLsbD_limb, BitVec.getLsbD_extractLsb', hindex,
    decide_eq_true (by omega : 8 * k + b < 64), Bool.true_and]

/-- Settles O44: the word read is a limb of x[i], and its byte is a byte of x[i]. -/
theorem registerBytesAreLittleEndian : Obligations.RegisterBytesAreLittleEndian := by
  intro s i j k es hinv hidle hk he
  have ht : accessTarget (limbOffset i j) .b8 = some (.limb i j) := accessTarget_of_toNat (limbOffset_toNat i j)
  refine ⟨{ s with events := es, readLog := s.limbValue i j :: s.readLog }, s.limbValue i j, ?_, rfl, ?_⟩
  · rw [step_hostRead hinv he, hostRead_limb_idle ht { s with events := es } hidle]; rfl
  · rw [← limb_x]
    exact wordByte_limb _ j.val hk

/-! ### The window (R200) -/

theorem windowOffset_eq_none_iff (addr : Nat) :
    windowOffset addr = none ↔ addr < Config.coreBase ∨ Config.coreBase + 1024 ≤ addr := by
  rw [windowOffset]
  split
  · simp; omega
  · simp; omega

/-- Settles O50: CORE_BASE is 1024 times its page number, and an offset is below 1024. -/
theorem windowIsOneKibAtCoreBase : Obligations.WindowIsOneKibAtCoreBase := by
  refine ⟨⟨Config.corePage, rfl⟩, fun off => ?_, windowOffset_eq_none_iff⟩
  have hoff := off.isLt
  rw [windowOffset, if_pos (by omega), Nat.add_sub_cancel_left, BitVec.ofNat_toNat, BitVec.setWidth_eq]

end Sys2Proof.Machine
end

section
/-! PROOFS. 48_host_conversions: the conversions out of CORE (section 3). -/

namespace Sys2Proof.Machine

/-- Settles O58: enc takes both readings back to the pattern, and on a type's range the type's reading takes enc back. -/
theorem conversionsRoundTrip : Obligations.ConversionsRoundTrip := by
  refine ⟨fun v => ⟨enc_uval v, enc_sval v⟩, fun z hlow hhigh => ?_, fun z hlow hhigh => sval_enc hlow hhigh⟩
  exact (uval_enc z).trans (Int.emod_eq_of_lt hlow hhigh)

/-! ### Decimal strings (R757) -/

/-- The base-10 digits of a number as characters, most significant first; Zero has one (log 11). -/
def digitChars (n : Nat) : List Char := if n = 0 then ['0'] else ((Nat.digits 10 n).map Nat.digitChar).reverse

theorem digitChars_of_lt {n : Nat} (hn : n < 10) : digitChars n = [Nat.digitChar n] := by
  rw [digitChars]
  split
  · next hzero => rw [hzero]; rfl
  · next hne => rw [Nat.digits_of_lt 10 n hne hn]; rfl

theorem digitChars_of_div_ne_zero {n : Nat} (hn : n / 10 ≠ 0) :
    digitChars n = digitChars (n / 10) ++ [Nat.digitChar (n % 10)] := by
  have hne : n ≠ 0 := by omega
  rw [digitChars, digitChars, if_neg hne, if_neg hn, Nat.digits_def' (by norm_num) (by omega), List.map_cons,
    List.reverse_cons]

/-- With enough fuel decimalDigits puts the digits before what is there. -/
theorem decimalDigits_eq (fuel : Nat) : ∀ (n : Nat) (rest : List Char), 0 < fuel → n < 10 ^ fuel →
    decimalDigits fuel n rest = digitChars n ++ rest := by
  induction fuel with
  | zero => exact fun _ _ h => absurd h (lt_irrefl 0)
  | succ fuel ih =>
    intro n rest _ hn
    rw [decimalDigits]
    by_cases hsmall : n / 10 = 0
    · rw [if_pos hsmall, digitChars_of_lt (by omega), Nat.mod_eq_of_lt (by omega), List.singleton_append]
    · have hpos : 0 < fuel := Nat.pos_of_ne_zero fun h => by simp [h] at hn; omega
      have hlt : n / 10 < 10 ^ fuel := Nat.div_lt_of_lt_mul (by rwa [← pow_succ'])
      rw [if_neg hsmall, ih _ _ hpos hlt, digitChars_of_div_ne_zero hsmall, List.append_assoc, List.singleton_append]

theorem digitChars_ne_nil (n : Nat) : digitChars n ≠ [] := by
  rw [digitChars]
  split
  · nofun
  · next hn => simpa using Nat.digits_ne_nil_iff_ne_zero.mpr hn

theorem toNat_digitChar : ∀ d < 10, (Nat.digitChar d).toNat = 48 + d := by decide

theorem mem_digitChars {n : Nat} {ch : Char} (h : ch ∈ digitChars n) : ∃ d < 10, ch = Nat.digitChar d := by
  rw [digitChars] at h
  split at h
  · exact ⟨0, by norm_num, List.mem_singleton.mp h⟩
  · obtain ⟨d, hd, rfl⟩ := List.mem_map.mp (List.mem_reverse.mp h)
    exact ⟨d, Nat.digits_lt_base (by norm_num) hd, rfl⟩

/-- The digits read in base 10 are the number. -/
theorem foldl_digitChars (n : Nat) : (digitChars n).foldl (fun m ch => 10 * m + (ch.toNat - 48)) 0 = n := by
  rw [digitChars]
  split
  · next hn => rw [hn]; rfl
  · have hdigit : ∀ d ∈ Nat.digits 10 n, ∀ m, 10 * m + ((Nat.digitChar d).toNat - 48) = d + 10 * m := by
      intro d hd m
      rw [toNat_digitChar d (Nat.digits_lt_base (by norm_num) hd)]
      omega
    rw [List.foldl_reverse, List.foldr_map, List.foldr_ext _ _ _ hdigit]
    conv_rhs => rw [← Nat.ofDigits_digits 10 n, Nat.ofDigits_eq_foldr]
    rfl

/-- No number but Zero has a leading 0. -/
theorem eq_zero_of_head_digitChars {n : Nat} (h : (digitChars n).head? = some '0') : n = 0 := by
  by_contra hn
  have hne : Nat.digits 10 n ≠ [] := Nat.digits_ne_nil_iff_ne_zero.mpr hn
  rw [digitChars, if_neg hn, List.head?_reverse, List.getLast?_map, List.getLast?_eq_some_getLast hne] at h
  have hlast : (Nat.digits 10 n).getLast hne ≠ 0 := Nat.getLast_digit_ne_zero 10 hn
  have hten := toNat_digitChar _ (Nat.digits_lt_base (by norm_num) (List.getLast_mem hne))
  have hchar := congrArg Char.toNat (Option.some.inj h)
  have hzero : ('0' : Char).toNat = 48 := rfl
  omega

theorem toDecimalUnsigned_eq (v : Value) : toDecimalUnsigned v = String.ofList (digitChars (uval v)) := by
  have hv := uval_lt v
  rw [toDecimalUnsigned, decimalDigits_eq 78 _ _ (by norm_num) (by omega), List.append_nil]

theorem toDecimalSigned_eq (v : Value) : toDecimalSigned v = String.ofList
    (if sval v < 0 then '-' :: digitChars (sval v).natAbs else digitChars (sval v).natAbs) := by
  have hv := natAbs_sval_le v
  rw [toDecimalSigned, decimalDigits_eq 78 _ _ (by norm_num) (by omega), List.append_nil]

/-- Settles O59: both strings are the digits of their number, of the signed value's magnitude where it is negative. -/
theorem decimalStringsReadBack : Obligations.DecimalStringsReadBack := by
  refine ⟨?_, ?_, fun v => ?_⟩
  · rw [toDecimalUnsigned_eq, uval_zeroValue]; rfl
  · have hzero : sval zeroValue = 0 := by rw [sval_of_uval_lt (by rw [uval_zeroValue]; norm_num), uval_zeroValue]; rfl
    rw [toDecimalSigned_eq, hzero]; rfl
  rw [toDecimalSigned_eq, toDecimalUnsigned_eq, toDecimalUnsigned_eq, uval_magnitude, String.toList_ofList]
  refine ⟨?_, fun ch hch => ?_, foldl_digitChars _, fun hhead => ?_, fun hneg => ?_, fun hnonneg => ?_⟩
  · exact mt String.ofList_eq_empty_iff.mp (digitChars_ne_nil _)
  · obtain ⟨d, hd, rfl⟩ := mem_digitChars hch
    have hcode := toNat_digitChar d hd
    omega
  · rw [eq_zero_of_head_digitChars hhead]; rfl
  · rw [if_pos hneg, String.ofList_cons]
    rfl
  · have hsame : (sval v).natAbs = uval v := by
      rw [sval_of_not_isNeg (by rw [isNeg_eq_decide, decide_eq_false hnonneg.not_gt]), Int.natAbs_natCast]
    rw [if_neg hnonneg.not_gt, hsame]

end Sys2Proof.Machine
end
